-- ==== Sys2Proof/Word.lean ====
section
/-! DEFINITION. The bit widths of the DEC128 CORE and the one kind of value it works on, the record of rule R20
(spec/10_state.md). Plain types only: what is computed with them stands in Decode.lean and under Machine/. -/

namespace Sys2Proof

/-- Eight bits: an exponent field, a state code, imm8, one byte of a serialised image (R22, R23, R70, R57). -/
abbrev Byte := BitVec 8

/-- A coefficient, an unsigned 128-bit magnitude (R21). -/
abbrev Coef := BitVec 128

/-- The image of a value register, and the width of the host port: 144 bits (R29, R76). -/
abbrev Image := BitVec 144

/-- The integer argument register N, 64 bits, read as two's complement (R30, R77). -/
abbrev IntWord := BitVec 64

/-- A command word (R70). -/
abbrev CmdWord := BitVec 16

/-- A register index, 0 to 15 (R51). -/
abbrev RegIndex := BitVec 4

/-- The fault cause field STATUS.FAULT, bits 2:0 of STATUS (R32). -/
abbrev FaultCode := BitVec 3

/-- A Decimal128 value: coefficient, exponent (decimal places) and state code (R20 to R23). -/
structure Dec where
  coef : Coef
  exp : Byte
  state : Byte
  deriving DecidableEq, Repr

end Sys2Proof
end

