-- ==== Sys2Proof/Config.lean ====
section
/-! DEFINITION. The parameters of rule R5 (spec/00_scope.md), at the values this hardware takes, and the two
parameters the spec leaves to the integrator. -/

namespace Sys2Proof

/-- EXP_MAX: the largest exponent of a finite value, and the precision of Div and Sqrt (R5). -/
abbrev Config.expMax : Nat := 19

/-- COEF_BITS: the width of the coefficient (R5). -/
abbrev Config.coefBits : Nat := 128

/-- DIVISOR_BITS: the width of the divider's divisor input (R5, R141). -/
abbrev Config.divisorBits : Nat := 64

/-- N_BITS: the width of the integer argument register (R5). -/
abbrev Config.nBits : Nat := 64

/-- PREC_BITS: the width of a rounding command's target precision (R5). -/
abbrev Config.precBits : Nat := 8

/-- ERR_THRESHOLD: the smallest state code that is an error marker (R5, R23). -/
abbrev Config.errThreshold : Nat := 2

/-- BASE_ADDR: OPEN, chosen by the integrator. No rule depends on it (R5, D27), so it has no body.
DESIGN CHOICE, safe, log entry 9. -/
opaque Config.baseAddr : Nat

/-- BUS_WIDTH: OPEN, chosen by the integrator. No rule depends on it (R5, D27), so it has no body.
DESIGN CHOICE, safe, log entry 9. -/
opaque Config.busWidth : Nat

end Sys2Proof
end

