-- ==== Sys2Proof/Syntax.lean ====
section
/-! DEFINITION. The 26 commands of rule R73 (spec/30_encoding.md), one constructor per row of
spec/opcode_table.json. Operands are implicit in the command (R71). Only the rounding commands carry a field,
the target precision `p` (R72). -/

namespace Sys2Proof

/-- A command of the block. `p` is a count of decimal places. A well-formed one is at most 255
(WellFormed.lean). -/
inductive Instr where
  | canon
  | abs
  | neg
  | sqrt
  | powi
  | fromi
  | add
  | sub
  | mul
  | div
  | mod
  | quorem
  | addi
  | subi
  | muli
  | divi
  | modi
  | quoremi
  | rdown (p : Nat)
  | rup (p : Nat)
  | rtz (p : Nat)
  | rafz (p : Nat)
  | rhtz (p : Nat)
  | rhafz (p : Nat)
  | rbank (p : Nat)
  | trunc (p : Nat)
  deriving DecidableEq, Repr

end Sys2Proof
end

