-- ==== Sys2Proof/WellFormed.lean ====
section
/-! DEFINITION. The two well-formedness checks: of a command's field (R70, R72, R180) and of a value record
(R26). -/

namespace Sys2Proof

/-- The target precision a command carries. The 18 non-rounding commands carry none (R70). -/
def Instr.precision : Instr → Option Nat
  | .canon | .abs | .neg | .sqrt | .powi | .fromi => none
  | .add | .sub | .mul | .div | .mod | .quorem => none
  | .addi | .subi | .muli | .divi | .modi | .quoremi => none
  | .rdown p | .rup p | .rtz p | .rafz p | .rhtz p | .rhafz p | .rbank p | .trunc p => some p

/-- A command is well-formed when its target precision, if it has one, is an 8-bit unsigned integer (R72). -/
def Instr.wf (i : Instr) : Bool :=
  match i.precision with
  | none => true
  | some p => decide (p < 2 ^ Config.precBits)

/-- A record is well-formed when it is an error value, or finite with an exponent of at most EXP_MAX (R26). -/
def Dec.wf (v : Dec) : Bool :=
  decide (Config.errThreshold ≤ v.state.toNat) || decide (v.exp.toNat ≤ Config.expMax)

end Sys2Proof
end

