-- ==== Sys2Proof/Decode.lean ====
section
/-! DEFINITION. Decoding and encoding of command words (spec/30_encoding.md, R70 to R75, R80) and the
little-endian byte order of a serialised register (R57). -/

namespace Sys2Proof

/-- Why a word or a byte string spells no command (R74). -/
inductive DecodeReject where
  /-- The opcode is none of the 26 (R74). -/
  | unlistedOpcode (op : Nat)
  /-- A non-rounding opcode with imm8 not 0 (R74). -/
  | nonzeroImm8 (op imm : Nat)
  /-- Fewer than the two bytes of a command word (R57). -/
  | truncated (count : Nat)
  deriving DecidableEq, Repr

/-- The opcode field, bits 7:0 (R70). -/
def opcodeOf (w : CmdWord) : Nat := (w.extractLsb' 0 8).toNat

/-- The imm8 field, bits 15:8, zero-extended (R70, R72). -/
def imm8Of (w : CmdWord) : Nat := (w.extractLsb' 8 8).toNat

/-- The eight rounding opcodes, with imm8 as the target precision (R73). -/
def roundingInstr (op p : Nat) : Option Instr :=
  match op with
  | 0x20 => some (.rdown p)
  | 0x21 => some (.rup p)
  | 0x22 => some (.rtz p)
  | 0x23 => some (.rafz p)
  | 0x24 => some (.rhtz p)
  | 0x25 => some (.rhafz p)
  | 0x26 => some (.rbank p)
  | 0x27 => some (.trunc p)
  | _ => none

/-- The eighteen opcodes that need imm8 = 0 (R73). -/
def plainInstr (op : Nat) : Option Instr :=
  match op with
  | 0x01 => some .canon
  | 0x02 => some .abs
  | 0x03 => some .neg
  | 0x04 => some .sqrt
  | 0x05 => some .powi
  | 0x06 => some .fromi
  | 0x10 => some .add
  | 0x11 => some .sub
  | 0x12 => some .mul
  | 0x13 => some .div
  | 0x14 => some .mod
  | 0x15 => some .quorem
  | 0x18 => some .addi
  | 0x19 => some .subi
  | 0x1A => some .muli
  | 0x1B => some .divi
  | 0x1C => some .modi
  | 0x1D => some .quoremi
  | _ => none

/-- The decoding procedure of R75, total on all 65536 words. -/
def decode (w : CmdWord) : Except DecodeReject Instr :=
  match roundingInstr (opcodeOf w) (imm8Of w) with
  | some i => .ok i
  | none =>
    match plainInstr (opcodeOf w) with
    | none => .error (.unlistedOpcode (opcodeOf w))
    | some i => if imm8Of w = 0 then .ok i else .error (.nonzeroImm8 (opcodeOf w) (imm8Of w))

/-- Byte `k` of an image is its bits `8k+7 : 8k`, least significant byte first (R57). -/
def bytesLE {n : Nat} (count : Nat) (v : BitVec n) : List Byte :=
  (List.range count).map fun k => v.extractLsb' (8 * k) 8

/-- A command word read from its bytes, byte 0 the opcode and byte 1 imm8 (R57), with the bytes after it. -/
def decodeBytes : List Byte → Except DecodeReject (Instr × List Byte)
  | op :: imm :: rest =>
    match decode (imm ++ op) with
    | .ok i => .ok (i, rest)
    | .error e => .error e
  | short => .error (.truncated short.length)

/-- The opcode of each command (R73). -/
def opcode : Instr → Nat
  | .canon => 0x01
  | .abs => 0x02
  | .neg => 0x03
  | .sqrt => 0x04
  | .powi => 0x05
  | .fromi => 0x06
  | .add => 0x10
  | .sub => 0x11
  | .mul => 0x12
  | .div => 0x13
  | .mod => 0x14
  | .quorem => 0x15
  | .addi => 0x18
  | .subi => 0x19
  | .muli => 0x1A
  | .divi => 0x1B
  | .modi => 0x1C
  | .quoremi => 0x1D
  | .rdown _ => 0x20
  | .rup _ => 0x21
  | .rtz _ => 0x22
  | .rafz _ => 0x23
  | .rhtz _ => 0x24
  | .rhafz _ => 0x25
  | .rbank _ => 0x26
  | .trunc _ => 0x27

/-- The word a command assembles to, `opcode + 256·p` with `p = 0` where there is none (R80). -/
def encode (i : Instr) : CmdWord :=
  BitVec.ofNat 16 (opcode i + 256 * (i.precision.getD 0))

/-- The `match` column of R73. -/
def matchBits : Instr → CmdWord
  | .canon => 0x0001
  | .abs => 0x0002
  | .neg => 0x0003
  | .sqrt => 0x0004
  | .powi => 0x0005
  | .fromi => 0x0006
  | .add => 0x0010
  | .sub => 0x0011
  | .mul => 0x0012
  | .div => 0x0013
  | .mod => 0x0014
  | .quorem => 0x0015
  | .addi => 0x0018
  | .subi => 0x0019
  | .muli => 0x001A
  | .divi => 0x001B
  | .modi => 0x001C
  | .quoremi => 0x001D
  | .rdown _ => 0x0020
  | .rup _ => 0x0021
  | .rtz _ => 0x0022
  | .rafz _ => 0x0023
  | .rhtz _ => 0x0024
  | .rhafz _ => 0x0025
  | .rbank _ => 0x0026
  | .trunc _ => 0x0027

/-- The `mask` column of R73: imm8 is free exactly in the rounding commands. -/
def maskBits (i : Instr) : CmdWord :=
  match i.precision with
  | none => 0xFFFF
  | some _ => 0x00FF

/-- The mnemonic of each command (R73). -/
def mnemonic : Instr → String
  | .canon => "CANON"
  | .abs => "ABS"
  | .neg => "NEG"
  | .sqrt => "SQRT"
  | .powi => "POWI"
  | .fromi => "FROMI"
  | .add => "ADD"
  | .sub => "SUB"
  | .mul => "MUL"
  | .div => "DIV"
  | .mod => "MOD"
  | .quorem => "QUOREM"
  | .addi => "ADDI"
  | .subi => "SUBI"
  | .muli => "MULI"
  | .divi => "DIVI"
  | .modi => "MODI"
  | .quoremi => "QUOREMI"
  | .rdown _ => "RDOWN"
  | .rup _ => "RUP"
  | .rtz _ => "RTZ"
  | .rafz _ => "RAFZ"
  | .rhtz _ => "RHTZ"
  | .rhafz _ => "RHAFZ"
  | .rbank _ => "RBANK"
  | .trunc _ => "TRUNC"

/-- The assembler text of a command: its mnemonic alone, or followed by `#p` for a rounding command (R80). -/
def assembly (i : Instr) : String :=
  match i.precision with
  | none => mnemonic i
  | some p => mnemonic i ++ " #" ++ toString p

/-- What the decoder reads from an instruction whose bits are `w`, `nbits` of them, bit 0 the least significant
bit of the command word. Every bit from `nbits` up is 0 and the two bytes are laid out little-endian (R57). A
number that needs more than the 16 bits of a command word spells no command (log entry 10). -/
def decodeTableWord (nbits w : Nat) : Option Instr :=
  if w % 2 ^ nbits < 2 ^ 16 then
    match decodeBytes (bytesLE 2 (BitVec.ofNat 16 (w % 2 ^ nbits))) with
    | .ok (i, _) => some i
    | .error _ => none
  else none

end Sys2Proof
end

