-- ==== Sys2Proof/Machine/Flags.lean ====
section
/-! DEFINITION. What the block has in place of flags: the state field of a value, its codes, the tests on it and
the records built from it (spec/10_state.md, R23 to R28, R34). -/

namespace Sys2Proof

/-- Code 0, Positive (R23). -/
def Dec.positive : Byte := 0
/-- Code 1, Negative (R23). -/
def Dec.negative : Byte := 1
/-- Code 2, NaN (R23). -/
def Dec.nan : Byte := 2
/-- Code 3, Overflow (R23). -/
def Dec.overflow : Byte := 3
/-- Code 4, DivisionByZero (R23). -/
def Dec.divisionByZero : Byte := 4
/-- Code 5, SqrtNegative (R23). -/
def Dec.sqrtNegative : Byte := 5

/-- `isError`: the state code is at or above the error threshold. Codes 6 to 255 are error markers too
(R24, R226). -/
def Dec.isError (v : Dec) : Bool := decide (Config.errThreshold ≤ v.state.toNat)

/-- `isNeg` (R24). -/
def Dec.isNeg (v : Dec) : Bool := v.state == Dec.negative

/-- `isZero`: the coefficient alone (R24). -/
def Dec.isZero (v : Dec) : Bool := v.coef == 0

/-- `toggle`: Positive and Negative exchanged (R25). -/
def Dec.toggle (v : Dec) : Dec := ⟨v.coef, v.exp, 1 - v.state⟩

/-- `Err(m)`: a newly produced marker carries zero in the other fields (R25). -/
def Dec.err (m : Byte) : Dec := ⟨0, 0, m⟩

/-- The constant `Zero` (R27). -/
def Dec.zero : Dec := ⟨0, 0, Dec.positive⟩

/-- The constant `One` (R27). -/
def Dec.one : Dec := ⟨1, 0, Dec.positive⟩

/-- Canonical form of a finite value (R28). -/
def Dec.isCanonical (v : Dec) : Bool := v.exp == 0 || decide (v.coef.toNat % 10 ≠ 0)

/-- The sign of a product or quotient: the XOR of the operands' one-bit sign codes (R130, R142). -/
def Dec.signXor (a b : Dec) : Byte := a.state ^^^ b.state

/-- The record of a coefficient and an exponent computed as integers. Every rule that uses it has tested the
ranges first (R113). -/
def Dec.ofNat (coef exp : Nat) (state : Byte) : Dec :=
  ⟨BitVec.ofNat Config.coefBits coef, BitVec.ofNat 8 exp, state⟩

end Sys2Proof
end

