-- ==== Sys2Proof/Machine/State.lean ====
section
/-! DEFINITION. The state of the block, its outcomes and its reset value (spec/10_state.md, R29 to R39). The
block has no memory, no program counter, no flags, no modes and no hidden state (R33, R34, R36, R50, R234). -/

namespace Sys2Proof.Machine

/-- The reasons a step stops as a fault. The block's own faults (ILLCMD, OPERAND, ACCESS) are none of these:
they latch a cause in STATUS and the machine goes on (R228), so they are next states (log entry 3). -/
inductive Fault where
  /-- Raised by the command frame (`commandFrame`) when an operand register holds a finite record with an
  exponent above EXP_MAX. The spec gives such operands no arithmetic result (U3) and no run reaches one (R38).
  Safe: the model stops where the spec says nothing (log entry 4). -/
  | illFormedOperand
  deriving DecidableEq, Repr

/-- The reasons a step is refused. -/
inductive Refusal where
  /-- Raised by `exec` for an instruction that has no meaning yet. No arm answers so: all 26 are modelled.
  Safe. -/
  | notModelled (mnemonic : String)
  deriving DecidableEq, Repr

/-- One action of the host (R6): a register read, a register write, or the reset action. The port is 144 bits
wide, and a register narrower than that takes the low bits of the data (DESIGN CHOICE, safe, log entry 5). -/
inductive HostAction where
  | read (idx : RegIndex)
  | write (idx : RegIndex) (data : Image)
  | reset
  deriving DecidableEq, Repr

/-- The registers of R29, R30 and R32, and the two sides of the host port. CMD holds nothing (R31), CZERO and
CONE are constants (R35): none of the three is state. -/
structure State where
  /-- VA, the first operand (R29). -/
  va : Dec
  /-- VB, the second operand (R29). -/
  vb : Dec
  /-- N, the integer argument (R30). -/
  n : IntWord
  /-- VQ, the result (R29). -/
  vq : Dec
  /-- VR, the remainder (R29). -/
  vr : Dec
  /-- STATUS.FAULT, the fault latch (R32, R228). The other five bits of STATUS always read 0. -/
  statusFault : FaultCode
  /-- The host's actions not yet performed, first one first: one stream, taken in order (R58). The model's own
  field (DESIGN CHOICE, safe, log entry 1). -/
  pending : List HostAction
  /-- The values the host's reads have returned, oldest first: with the registers, the result of a run (R258).
  The model's own field (DESIGN CHOICE, safe, log entry 2). -/
  replies : List Image
  deriving DecidableEq, Repr

/-- Every bit of the block is zero after reset (R37, R250). Nothing is placed for the host to do. -/
def State.reset : State where
  va := ⟨0, 0, 0⟩
  vb := ⟨0, 0, 0⟩
  n := 0
  vq := ⟨0, 0, 0⟩
  vr := ⟨0, 0, 0⟩
  statusFault := 0
  pending := []
  replies := []

end Sys2Proof.Machine
end

