-- ==== Sys2Proof/Machine/Ops.lean ====
section
/-! DEFINITION. The named operations over the registers: their images (R76 to R78), the operand check (R55), the
fault latch (R228) and the one way out of it, the reset action (R233, R250). -/

namespace Sys2Proof

/-- The 144-bit image of a record: coef in bits 127:0, exp in 135:128, state in 143:136 (R76). -/
def Dec.image (v : Dec) : Image := v.state ++ (v.exp ++ v.coef)

/-- The record a 144-bit image spells (R76). -/
def Dec.ofImage (b : Image) : Dec :=
  ⟨b.extractLsb' 0 128, b.extractLsb' 128 8, b.extractLsb' 136 8⟩

/-- The operand check of a write to VA or VB: finite with `exp > EXP_MAX` is turned away, every other record is
accepted (R55). -/
def Dec.accepted (v : Dec) : Bool := v.wf

namespace Machine

/-- The three causes of a fault (R227). -/
inductive Cause where
  /-- A word that is not one of the 26 commands was written to CMD. -/
  | illcmd
  /-- A finite record with `exp > EXP_MAX` was written to VA or VB. -/
  | operand
  /-- A write to a read-only register, a read of CMD, or an access to an undefined index. -/
  | access
  deriving DecidableEq, Repr

/-- The cause codes of STATUS.FAULT (R78, R227). -/
def causeCode : Cause → FaultCode
  | .illcmd => 1
  | .operand => 2
  | .access => 3

/-- Whether a fault is latched. -/
def State.faulted (s : State) : Bool := s.statusFault != 0

/-- `raise Fault(c)`: the first fault wins, and nothing else changes (R228). This is what the block has for
taking an exception: no pc, no saved state, no handler (R232). -/
def State.raiseFault (c : Cause) (s : State) : State :=
  if s.faulted then s else { s with statusFault := causeCode c }

/-- The reset action: every register and the latch to zero. It is the only way out of a latched fault (R233,
R250). What the host has still to do and what it has read are not the block's, and stay. -/
def State.applyReset (s : State) : State :=
  { State.reset with pending := s.pending, replies := s.replies }

/-- `VA <- v` (R54). -/
def State.setVA (s : State) (v : Dec) : State := { s with va := v }

/-- `VB <- v` (R54). -/
def State.setVB (s : State) (v : Dec) : State := { s with vb := v }

/-- `N <- d` (R54). -/
def State.setN (s : State) (d : IntWord) : State := { s with n := d }

/-- `VQ <- v` (R110). -/
def State.setVQ (s : State) (v : Dec) : State := { s with vq := v }

/-- `VR <- v` (R110). -/
def State.setVR (s : State) (v : Dec) : State := { s with vr := v }

/-- A read hands a value back to the host (R53). -/
def State.reply (s : State) (d : Image) : State := { s with replies := s.replies ++ [d] }

/-- STATUS's 8-bit image: FAULT in bits 2:0, zero in bits 7:3 (R78). -/
def State.statusImage (s : State) : Byte := s.statusFault.setWidth 8

end Machine

end Sys2Proof
end

