-- ==== Sys2Proof/Machine/Operands.lean ====
section
/-! DEFINITION. What the commands share: the operand from N (R77, R200), the canonical form (R100), the
error short-circuit and the fast attempt with its one canonical retry (R111, R112), the divider (R141), the
powers of ten (R10), and the command frame (R110). -/

namespace Sys2Proof

/-- `pow10(k)`, the exact integer (R10). -/
abbrev pow10 (k : Nat) : Nat := 10 ^ k

/-- The bound of a coefficient: what reaches it does not fit 128 bits (R21, R113). -/
abbrev coefLimit : Nat := 2 ^ Config.coefBits

/-- The bound of the divider's divisor input (R141). -/
abbrev divisorLimit : Nat := 2 ^ Config.divisorBits

/-- The divider primitive: quotient and remainder of non-negative integers, used with `d > 0` (R7, R141). -/
def divRem (n d : Nat) : Nat × Nat := (n / d, n % d)

/-- `sint(N)`: bits 62:0 less `2^63` times bit 63 (R8, R77). -/
def sint (n : IntWord) : Int :=
  ((n.extractLsb' 0 63).toNat : Int) - 2 ^ 63 * ((n.extractLsb' 63 1).toNat : Int)

/-- `FromInt64(i)`: sign and magnitude at exponent 0, with no wrap at `-2^63` (R200). -/
def fromInt64 (i : Int) : Dec :=
  if i < 0 then Dec.ofNat i.natAbs 0 Dec.negative else Dec.ofNat i.natAbs 0 Dec.positive

/-- The loop of `Canonical` on coefficient and exponent, at most one turn for each decimal place (R100). -/
def canonicalLoop (c : Nat) : Nat → Nat × Nat
  | 0 => (c, 0)
  | e + 1 => if c % 10 = 0 then canonicalLoop (c / 10) e else (c, e + 1)

/-- `Canonical(v)`: trailing zeros removed while the exponent lasts, sign kept, an error value unchanged
(R100). -/
def Dec.canonical (v : Dec) : Dec :=
  if v.isError then v
  else
    let r := canonicalLoop v.coef.toNat v.exp.toNat
    Dec.ofNat r.1 r.2 v.state

/-- `TwoTier`: the fast attempt, else one retry on the canonical operands, else `overflow` (R112). `none` is
an attempt that fails (R113). -/
def twoTier {α : Type} (attempt : Dec → Dec → Option α) (overflow : α) (a b : Dec) : α :=
  match attempt a b with
  | some r => r
  | none =>
    match attempt a.canonical b.canonical with
    | some r => r
    | none => overflow

/-- Phase 1: an error operand is returned whole, the left one first. `wrap` says what the operation delivers
for a record it returns: the record itself, or a pair of it (R111, R148). -/
def shortCircuit {α : Type} (wrap : Dec → α) (a b : Dec) (rest : α) : α :=
  if a.isError then wrap a else if b.isError then wrap b else rest

namespace Machine

/-- The command frame (R110). With a fault latched nothing happens (R229). Otherwise the command runs as one
step to the state `after`, computed from the registers at its start. `operandsOk` says that the registers the
command reads are well-formed, as they are in every run (R38). -/
def commandFrame (s : State) (operandsOk : Bool) (after : State) : Host.Outcome State Fault Refusal :=
  if s.faulted then .next s
  else if operandsOk then .next after
  else .fault .illFormedOperand

/-- The right operand of the `*I` commands: N converted (R202). -/
def State.nOperand (s : State) : Dec := fromInt64 (sint s.n)

/-- Both value operands are well-formed. -/
def State.operandsWf (s : State) : Bool := s.va.wf && s.vb.wf

end Machine

end Sys2Proof
end

