-- ==== Sys2Proof/Machine/Canonical.lean ====
section
/-! DEFINITION. CANON (spec/40_canonical.md, R100, R101). The function `Canonical` itself is in Operands.lean,
since the shared protocol calls it too. -/

namespace Sys2Proof.Machine

/-- CANON: `VQ <- Canonical(VA)` (R101). -/
def execCanon (s : State) : Host.Outcome State Fault Refusal :=
  commandFrame s s.va.wf (s.setVQ s.va.canonical)

end Sys2Proof.Machine
end

