-- ==== Sys2Proof/Machine/AddSub.lean ====
section
/-! DEFINITION. The adder/subtractor: ADD and SUB (spec/41_protocol_addsub.md, R115 to R120). -/

namespace Sys2Proof

/-- The attempt of addition: align to the larger exponent, then add or subtract magnitudes. It fails where an
aligned coefficient or the sum does not fit 128 bits (R116). -/
def addAttempt (a b : Dec) : Option Dec :=
  let e := max a.exp.toNat b.exp.toNat
  let ca := a.coef.toNat * pow10 (e - a.exp.toNat)
  let cb := b.coef.toNat * pow10 (e - b.exp.toNat)
  if ca ≥ coefLimit ∨ cb ≥ coefLimit then none
  else if a.state = b.state then
    if ca + cb ≥ coefLimit then none else some (Dec.ofNat (ca + cb) e a.state)
  else if ca > cb then some (Dec.ofNat (ca - cb) e a.state)
  else if ca < cb then some (Dec.ofNat (cb - ca) e b.state)
  else some (Dec.ofNat 0 e Dec.positive)

/-- The operation Add (R117). -/
def addOp (a b : Dec) : Dec :=
  shortCircuit id a b (twoTier addAttempt (Dec.err Dec.overflow) a b)

/-- The operation Sub: Add of the sign-toggled right operand, after the error checks (R119). -/
def subOp (a b : Dec) : Dec :=
  shortCircuit id a b (twoTier addAttempt (Dec.err Dec.overflow) a b.toggle)

namespace Machine

/-- ADD: `VQ <- AddOp(VA, VB)` (R118). -/
def execAdd (s : State) : Host.Outcome State Fault Refusal :=
  commandFrame s s.operandsWf (s.setVQ (addOp s.va s.vb))

/-- SUB: `VQ <- SubOp(VA, VB)` (R120). -/
def execSub (s : State) : Host.Outcome State Fault Refusal :=
  commandFrame s s.operandsWf (s.setVQ (subOp s.va s.vb))

end Machine

end Sys2Proof
end

