-- ==== Sys2Proof/Machine/Div.lean ====
section
/-! DEFINITION. The divider: DIV, MOD and QUOREM (spec/43_div.md, R140 to R151). -/

namespace Sys2Proof

/-- The checks before any division, in the order of R140: error operands, zero divisor, zero dividend. -/
def divisionChecks {α : Type} (wrap : Dec → α) (a b : Dec) (rest : α) : α :=
  shortCircuit wrap a b
    (if b.isZero then wrap (Dec.err Dec.divisionByZero)
     else if a.isZero then wrap Dec.zero
     else rest)

/-- The attempt of Div: the dividend scaled so that the quotient has exponent EXP_MAX, the remainder dropped
(R143). -/
def divAttempt (a b : Dec) : Option Dec :=
  let k := Config.expMax + b.exp.toNat - a.exp.toNat
  let n := a.coef.toNat * pow10 k
  if n ≥ coefLimit then none
  else if b.coef.toNat ≥ divisorLimit then none
  else some (Dec.ofNat (divRem n b.coef.toNat).1 Config.expMax (a.signXor b))

/-- The operation Div (R144). -/
def divOp (a b : Dec) : Dec :=
  divisionChecks id a b (twoTier divAttempt (Dec.err Dec.overflow) a b)

/-- The attempt of QuoRem: the dividend rescaled to exponent EXP_MAX, quotient and remainder with the signs of
R142 (R147). -/
def quoRemAttempt (a b : Dec) : Option (Dec × Dec) :=
  let k := Config.expMax - a.exp.toNat
  let n := a.coef.toNat * pow10 k
  if n ≥ coefLimit then none
  else if b.coef.toNat ≥ divisorLimit then none
  else
    let qr := divRem n b.coef.toNat
    some (Dec.ofNat qr.1 (Config.expMax - b.exp.toNat) (a.signXor b), Dec.ofNat qr.2 Config.expMax a.state)

/-- The same record to both results (R148). -/
def both (v : Dec) : Dec × Dec := (v, v)

/-- The operation QuoRem, a pair (R148). -/
def quoRemOp (a b : Dec) : Dec × Dec :=
  divisionChecks both a b (twoTier quoRemAttempt (both (Dec.err Dec.overflow)) a b)

/-- The operation Mod: the remainder of QuoRem (R150). -/
def modOp (a b : Dec) : Dec := (quoRemOp a b).2

namespace Machine

/-- DIV: `VQ <- DivOp(VA, VB)` (R145). -/
def execDiv (s : State) : Host.Outcome State Fault Refusal :=
  commandFrame s s.operandsWf (s.setVQ (divOp s.va s.vb))

/-- MOD: `VQ <- ModOp(VA, VB)`, VR not written (R151). -/
def execMod (s : State) : Host.Outcome State Fault Refusal :=
  commandFrame s s.operandsWf (s.setVQ (modOp s.va s.vb))

/-- QUOREM: the quotient to VQ and the remainder to VR (R149). -/
def execQuorem (s : State) : Host.Outcome State Fault Refusal :=
  commandFrame s s.operandsWf
    ((s.setVQ (quoRemOp s.va s.vb).1).setVR (quoRemOp s.va s.vb).2)

end Machine

end Sys2Proof
end

