-- ==== Sys2Proof/Machine/Mul.lean ====
section
/-! DEFINITION. The multiplier: MUL (spec/42_mul.md, R130 to R132). -/

namespace Sys2Proof

/-- The attempt of multiplication: exponents add, coefficients multiply exactly. It fails where the exponent
passes EXP_MAX or the product does not fit 128 bits (R130). -/
def mulAttempt (a b : Dec) : Option Dec :=
  let e := a.exp.toNat + b.exp.toNat
  let p := a.coef.toNat * b.coef.toNat
  if e > Config.expMax then none
  else if p ≥ coefLimit then none
  else some (Dec.ofNat p e (a.signXor b))

/-- The operation Mul: a zero operand gives the constant `Zero`, after the error test (R131). -/
def mulOp (a b : Dec) : Dec :=
  shortCircuit id a b
    (if a.isZero || b.isZero then Dec.zero
     else twoTier mulAttempt (Dec.err Dec.overflow) a b)

namespace Machine

/-- MUL: `VQ <- MulOp(VA, VB)` (R132). -/
def execMul (s : State) : Host.Outcome State Fault Refusal :=
  commandFrame s s.operandsWf (s.setVQ (mulOp s.va s.vb))

end Machine

end Sys2Proof
end

