-- ==== Sys2Proof/Machine/Int64.lean ====
section
/-! DEFINITION. FROMI and the six commands whose right operand is the integer register (spec/46_int64_forms.md,
R200 to R208). VB is neither read nor written by any of them (R202). -/

namespace Sys2Proof.Machine

/-- FROMI: `VQ <- FromInt64(sint(N))`, VA and VB not read (R201). -/
def execFromi (s : State) : Host.Outcome State Fault Refusal :=
  commandFrame s true (s.setVQ s.nOperand)

/-- ADDI: `VQ <- AddOp(VA, FromInt64(sint(N)))` (R203). -/
def execAddi (s : State) : Host.Outcome State Fault Refusal :=
  commandFrame s s.va.wf (s.setVQ (addOp s.va s.nOperand))

/-- SUBI: `VQ <- SubOp(VA, FromInt64(sint(N)))` (R204). -/
def execSubi (s : State) : Host.Outcome State Fault Refusal :=
  commandFrame s s.va.wf (s.setVQ (subOp s.va s.nOperand))

/-- MULI: `VQ <- MulOp(VA, FromInt64(sint(N)))` (R205). -/
def execMuli (s : State) : Host.Outcome State Fault Refusal :=
  commandFrame s s.va.wf (s.setVQ (mulOp s.va s.nOperand))

/-- DIVI: `VQ <- DivOp(VA, FromInt64(sint(N)))` (R206). -/
def execDivi (s : State) : Host.Outcome State Fault Refusal :=
  commandFrame s s.va.wf (s.setVQ (divOp s.va s.nOperand))

/-- MODI: `VQ <- ModOp(VA, FromInt64(sint(N)))` (R207). -/
def execModi (s : State) : Host.Outcome State Fault Refusal :=
  commandFrame s s.va.wf (s.setVQ (modOp s.va s.nOperand))

/-- QUOREMI: quotient to VQ and remainder to VR, with the divisor from N (R208). -/
def execQuoremi (s : State) : Host.Outcome State Fault Refusal :=
  commandFrame s s.va.wf
    ((s.setVQ (quoRemOp s.va s.nOperand).1).setVR (quoRemOp s.va s.nOperand).2)

end Sys2Proof.Machine
end

