-- ==== Sys2Proof/Machine/Round.lean ====
section
/-! DEFINITION. The eight-mode rounder (spec/45_rounding.md, R180 to R191). -/

namespace Sys2Proof

/-- The eight modes, in the order of R183 (mode 0 to mode 7). -/
inductive RoundMode where
  | down
  | up
  | towardZero
  | awayFromZero
  | halfTowardZero
  | halfAwayFromZero
  | bank
  | trunc
  deriving DecidableEq, Repr

/-- The increment condition `Inc(mode, q, r, f, state)` (R183). -/
def roundInc (mode : RoundMode) (q r f : Nat) (negative : Bool) : Bool :=
  match mode with
  | .down => negative && decide (r > 0)
  | .up => !negative && decide (r > 0)
  | .towardZero => false
  | .awayFromZero => decide (r > 0)
  | .halfTowardZero => decide (r > f / 2)
  | .halfAwayFromZero => decide (r ≥ f / 2)
  | .bank => decide (r > f / 2 ∨ (r = f / 2 ∧ q % 2 = 1))
  | .trunc => false

/-- The function `Round(mode, v, p)` (R180). The overflow check of the increment is kept although it cannot
fire (R182). -/
def roundOp (mode : RoundMode) (v : Dec) (p : Nat) : Dec :=
  if v.isError then v
  else if p ≥ v.exp.toNat then v
  else
    let f := pow10 (v.exp.toNat - p)
    let qr := divRem v.coef.toNat f
    if roundInc mode qr.1 qr.2 f v.isNeg then
      if qr.1 + 1 ≥ coefLimit then Dec.err Dec.overflow else Dec.ofNat (qr.1 + 1) p v.state
    else Dec.ofNat qr.1 p v.state

namespace Machine

/-- RDOWN #p: `VQ <- Round(0, VA, p)` (R184). -/
def execRdown (p : Nat) (s : State) : Host.Outcome State Fault Refusal :=
  commandFrame s s.va.wf (s.setVQ (roundOp .down s.va p))

/-- RUP #p: `VQ <- Round(1, VA, p)` (R185). -/
def execRup (p : Nat) (s : State) : Host.Outcome State Fault Refusal :=
  commandFrame s s.va.wf (s.setVQ (roundOp .up s.va p))

/-- RTZ #p: `VQ <- Round(2, VA, p)` (R186). -/
def execRtz (p : Nat) (s : State) : Host.Outcome State Fault Refusal :=
  commandFrame s s.va.wf (s.setVQ (roundOp .towardZero s.va p))

/-- RAFZ #p: `VQ <- Round(3, VA, p)` (R187). -/
def execRafz (p : Nat) (s : State) : Host.Outcome State Fault Refusal :=
  commandFrame s s.va.wf (s.setVQ (roundOp .awayFromZero s.va p))

/-- RHTZ #p: `VQ <- Round(4, VA, p)` (R188). -/
def execRhtz (p : Nat) (s : State) : Host.Outcome State Fault Refusal :=
  commandFrame s s.va.wf (s.setVQ (roundOp .halfTowardZero s.va p))

/-- RHAFZ #p: `VQ <- Round(5, VA, p)` (R189). -/
def execRhafz (p : Nat) (s : State) : Host.Outcome State Fault Refusal :=
  commandFrame s s.va.wf (s.setVQ (roundOp .halfAwayFromZero s.va p))

/-- RBANK #p: `VQ <- Round(6, VA, p)` (R190). -/
def execRbank (p : Nat) (s : State) : Host.Outcome State Fault Refusal :=
  commandFrame s s.va.wf (s.setVQ (roundOp .bank s.va p))

/-- TRUNC #p: `VQ <- Round(7, VA, p)` (R191). -/
def execTrunc (p : Nat) (s : State) : Host.Outcome State Fault Refusal :=
  commandFrame s s.va.wf (s.setVQ (roundOp .trunc s.va p))

end Machine

end Sys2Proof
end

