-- ==== Sys2Proof/Machine/Unary.lean ====
section
/-! DEFINITION. ABS, NEG, SQRT and POWI (spec/44_unary.md, R160 to R171). -/

namespace Sys2Proof

/-- The operation Abs (R160). -/
def absOp (v : Dec) : Dec :=
  if v.isError then v else ⟨v.coef, v.exp, Dec.positive⟩

/-- The operation Neg (R162). -/
def negOp (v : Dec) : Dec :=
  if v.isError then v else v.toggle

/-- The integer root found bit by bit from bit `bits - 1` down: `s` is the root so far, and a bit is kept
where the square still does not exceed `m`. -/
def isqrtBits (m : Nat) : Nat → Nat → Nat
  | 0, s => s
  | b + 1, s => isqrtBits m b (if (s + 2 ^ b) * (s + 2 ^ b) ≤ m then s + 2 ^ b else s)

/-- `isqrt(m)`, the largest `s` with `s·s ≤ m`, for every `m` below `2^256` (R7). The 256-bit radicand gives a
root of at most 128 bits (R164, R256). -/
def isqrt (m : Nat) : Nat := isqrtBits m 128 0

/-- The attempt of Sqrt: the root truncated at EXP_MAX places. The radicand is held wider than a coefficient,
so this never fails (R164). -/
def sqrtAttempt (a : Dec) : Option Dec :=
  some (Dec.ofNat (isqrt (a.coef.toNat * pow10 (2 * Config.expMax - a.exp.toNat))) Config.expMax Dec.positive)

/-- The operation Sqrt, its special cases in the order of R165. -/
def sqrtOp (a : Dec) : Dec :=
  if a.isError then a
  else if a.isZero then Dec.zero
  else if a.isNeg then Dec.err Dec.sqrtNegative
  else if a.coef.toNat = pow10 a.exp.toNat then Dec.one
  else
    match sqrtAttempt a with
    | some r => r
    | none =>
      match sqrtAttempt a.canonical with
      | some r => r
      | none => Dec.err Dec.overflow

/-- PowInt for an exponent that is not negative: squaring with a trailing multiply where the exponent is odd
(R170). `fuel` bounds the depth. An exponent below `2^fuel` never uses it up (DEDUCED, safe, log entry 11). -/
def powNat : Nat → Dec → Nat → Dec
  | 0, x, _ => x
  | fuel + 1, x, n =>
    if x.isError then x
    else if n = 0 then Dec.one
    else if n = 1 then x
    else
      let h := powNat fuel (mulOp x x) (n / 2)
      if n % 2 = 0 then h else mulOp h x

/-- The operation PowInt for a signed 64-bit exponent (R170). -/
def powOp (x : Dec) (n : Int) : Dec :=
  if x.isError then x
  else if n < 0 then
    if n = -(2 ^ 63) then Dec.err Dec.overflow
    else divOp Dec.one (powNat Config.nBits x n.natAbs)
  else powNat Config.nBits x n.natAbs

namespace Machine

/-- ABS: `VQ <- AbsOp(VA)` (R161). -/
def execAbs (s : State) : Host.Outcome State Fault Refusal :=
  commandFrame s s.va.wf (s.setVQ (absOp s.va))

/-- NEG: `VQ <- NegOp(VA)` (R163). -/
def execNeg (s : State) : Host.Outcome State Fault Refusal :=
  commandFrame s s.va.wf (s.setVQ (negOp s.va))

/-- SQRT: `VQ <- SqrtOp(VA)` (R167). -/
def execSqrt (s : State) : Host.Outcome State Fault Refusal :=
  commandFrame s s.va.wf (s.setVQ (sqrtOp s.va))

/-- POWI: `VQ <- PowOp(VA, sint(N))`, the whole recursion in one step (R171). -/
def execPowi (s : State) : Host.Outcome State Fault Refusal :=
  commandFrame s s.va.wf (s.setVQ (powOp s.va (sint s.n)))

end Machine

end Sys2Proof
end

