-- ==== Sys2Proof/Machine/Dispatch.lean ====
section
/-! DEFINITION. One arm per command of rule R73: the meaning it calls. -/

namespace Sys2Proof.Machine

/-- The execution of a decoded command (R110). -/
def exec (i : Instr) (s : State) : Host.Outcome State Fault Refusal :=
  match i with
  | .canon => Sys2Proof.Machine.execCanon s
  | .abs => Sys2Proof.Machine.execAbs s
  | .neg => Sys2Proof.Machine.execNeg s
  | .sqrt => Sys2Proof.Machine.execSqrt s
  | .powi => Sys2Proof.Machine.execPowi s
  | .fromi => Sys2Proof.Machine.execFromi s
  | .add => Sys2Proof.Machine.execAdd s
  | .sub => Sys2Proof.Machine.execSub s
  | .mul => Sys2Proof.Machine.execMul s
  | .div => Sys2Proof.Machine.execDiv s
  | .mod => Sys2Proof.Machine.execMod s
  | .quorem => Sys2Proof.Machine.execQuorem s
  | .addi => Sys2Proof.Machine.execAddi s
  | .subi => Sys2Proof.Machine.execSubi s
  | .muli => Sys2Proof.Machine.execMuli s
  | .divi => Sys2Proof.Machine.execDivi s
  | .modi => Sys2Proof.Machine.execModi s
  | .quoremi => Sys2Proof.Machine.execQuoremi s
  | .rdown p => Sys2Proof.Machine.execRdown p s
  | .rup p => Sys2Proof.Machine.execRup p s
  | .rtz p => Sys2Proof.Machine.execRtz p s
  | .rafz p => Sys2Proof.Machine.execRafz p s
  | .rhtz p => Sys2Proof.Machine.execRhtz p s
  | .rhafz p => Sys2Proof.Machine.execRhafz p s
  | .rbank p => Sys2Proof.Machine.execRbank p s
  | .trunc p => Sys2Proof.Machine.execTrunc p s

end Sys2Proof.Machine
end

