-- ==== Sys2Proof/Machine/Port.lean ====
section
/-! DEFINITION. The host port: what a read, a write and the reset action do (spec/20_memory.md, R51 to R56). -/

namespace Sys2Proof.Machine

/-- The value a readable register returns, zero-extended to the port. `none` is an index that may not be read:
CMD, and 9 to 15 (R51, R53). -/
def State.readable (s : State) (idx : RegIndex) : Option Image :=
  match idx.toNat with
  | 0 => some s.va.image
  | 1 => some s.vb.image
  | 2 => some (s.n.setWidth 144)
  | 4 => some s.vq.image
  | 5 => some s.vr.image
  | 6 => some (s.statusImage.setWidth 144)
  | 7 => some Dec.zero.image
  | 8 => some Dec.one.image
  | _ => none

/-- `RD idx`: the register's value, or 0 and Fault(ACCESS). A latched fault stops no read (R53, R56). -/
def hostRead (idx : RegIndex) (s : State) : State :=
  match s.readable idx with
  | some d => s.reply d
  | none => (s.reply 0).raiseFault .access

/-- A write to VA or VB: `set` writes the register the record goes to, after the operand check (R54, R55). -/
def writeOperand (set : State → Dec → State) (data : Image) (s : State) : State :=
  if (Dec.ofImage data).accepted then set s (Dec.ofImage data) else s.raiseFault .operand

/-- A write to CMD: the word executes, or raises Fault(ILLCMD) (R54, R110). CMD itself stores nothing. -/
def writeCommand (w : CmdWord) (s : State) : Host.Outcome State Fault Refusal :=
  match decode w with
  | .ok i => exec i s
  | .error _ => .next (s.raiseFault .illcmd)

/-- `WR idx, data`, in the order of R54: a latched fault turns every write away unexamined (R229), then the
index, then the data. -/
def hostWrite (idx : RegIndex) (data : Image) (s : State) : Host.Outcome State Fault Refusal :=
  if s.faulted then .next s
  else
    match idx.toNat with
    | 0 => .next (writeOperand State.setVA data s)
    | 1 => .next (writeOperand State.setVB data s)
    | 2 => .next (s.setN (data.setWidth 64))
    | 3 => writeCommand (data.setWidth 16) s
    | _ => .next (s.raiseFault .access)

/-- One host action, performed whole (R6, R52, R58). -/
def perform (a : HostAction) (s : State) : Host.Outcome State Fault Refusal :=
  match a with
  | .read idx => .next (hostRead idx s)
  | .write idx data => hostWrite idx data s
  | .reset => .next s.applyReset

end Sys2Proof.Machine
end

