-- ==== Sys2Proof/Machine/Step.lean ====
section
/-! DEFINITION. One step: the host's next action, performed whole (R6, R58). A command is fetched from nowhere:
it is the data of a write to CMD (R33, R60). -/

namespace Sys2Proof.Machine

/-- The next host action is performed. With no action left nothing happens: the block does nothing of its own
(R6, R258; log entry 1). -/
def step (s : State) : Host.Outcome State Fault Refusal :=
  match s.pending with
  | [] => .next s
  | a :: rest => perform a { s with pending := rest }

/-- `s` with the host about to write the word `w` (`nbits` bits of it, the rest 0) to CMD: the next step
executes exactly it (log entry 6). -/
def State.withFetchWord (s : State) (nbits w : Nat) : State :=
  { s with pending := .write 3 (BitVec.ofNat 144 (w % 2 ^ nbits)) :: s.pending }

end Sys2Proof.Machine
end

