-- ==== Sys2Proof/Machine/Pseudo.lean ====
section
/-! DEFINITION. The pseudo-instructions of R82 (spec/30_encoding.md), each as the host actions it expands to. A
host that chains a result reads the value back first, so these are host moves over states, not commands
(DESIGN CHOICE, safe, log entry 8). -/

namespace Sys2Proof.Machine

/-- The two registers a pseudo-instruction may load (R82). -/
inductive OperandReg where
  | va
  | vb
  deriving DecidableEq, Repr

/-- The two registers MOV may read (R82). -/
inductive ResultReg where
  | vq
  | vr
  deriving DecidableEq, Repr

/-- The pseudo-instructions (R82). -/
inductive Pseudo where
  | mov (dst : OperandReg) (src : ResultReg)
  | ldz (dst : OperandReg)
  | ldo (dst : OperandReg)
  | ldi (n : Int)
  | cmd (i : Instr)
  deriving DecidableEq, Repr

/-- The index of an operand register (R51). -/
def operandIndex : OperandReg → RegIndex
  | .va => 0
  | .vb => 1

/-- The index of a result register (R51). -/
def resultIndex : ResultReg → RegIndex
  | .vq => 4
  | .vr => 5

/-- The host performs one action now, ahead of whatever it has still to do. -/
def hostDo (a : HostAction) (s : State) : Host.Outcome State Fault Refusal :=
  step { s with pending := a :: s.pending }

/-- `t = RD src; WR dst, t`: the value the read returned is written (R82). -/
def readThenWrite (src dst : RegIndex) (s : State) : Host.Outcome State Fault Refusal :=
  match hostDo (.read src) s with
  | .next t => hostDo (.write dst (t.replies.getLastD 0)) t
  | .fault r => .fault r
  | .refused r => .refused r

/-- What each pseudo-instruction does, by its expansion (R82). The spec gives N's range (R77) and is silent on LDI
of an integer outside it. There the model writes the integer modulo 2^64 (DESIGN CHOICE, unsafe, log entry 15). -/
def runPseudo (p : Pseudo) (s : State) : Host.Outcome State Fault Refusal :=
  match p with
  | .mov dst src => readThenWrite (resultIndex src) (operandIndex dst) s
  | .ldz dst => readThenWrite 7 (operandIndex dst) s
  | .ldo dst => readThenWrite 8 (operandIndex dst) s
  | .ldi n => hostDo (.write 2 ((BitVec.ofInt 64 n).setWidth 144)) s
  | .cmd i => hostDo (.write 3 ((encode i).setWidth 144)) s

end Sys2Proof.Machine
end

