-- ==== Sys2Proof/Safety.lean ====
section
/-! DEFINITION. The terms the statements are made in: the quantity of a value (R13), the register invariant
(R38), a block that is ready for a command (R110), a run that has not failed (R258), and the exact results of the
arithmetic written over the integers, apart from the machine's own attempt functions. -/

namespace Sys2Proof

/-- The quantity of a finite value: `sgn · coef · 10^(-exp)` (R13). It means nothing on an error value. -/
def Dec.val (v : Dec) : ℚ :=
  (if v.state = 1 then -1 else 1) * (v.coef.toNat : ℚ) / 10 ^ v.exp.toNat

/-- A finite, well-formed record (R24, R26). -/
def Dec.finite (v : Dec) : Bool := !v.isError && v.wf

/-- The coefficient with its sign, as an integer (R115). -/
def Dec.signed (v : Dec) : ℤ :=
  if v.state = 1 then -(v.coef.toNat : ℤ) else (v.coef.toNat : ℤ)

/-- The sign of a product or quotient: Positive when the signs agree, else Negative (R130, R142). -/
def signOf (a b : Dec) : Byte := if a.state = b.state then 0 else 1

/-- The common aligned exponent (R116). -/
def alignedExp (a b : Dec) : ℕ := max a.exp.toNat b.exp.toNat

/-- A magnitude at the aligned exponent `e` (R116). -/
def alignedMag (v : Dec) (e : ℕ) : ℕ := v.coef.toNat * 10 ^ (e - v.exp.toNat)

/-- The sum of the two aligned values as an integer (R116). -/
def alignedSum (a b : Dec) : ℤ :=
  a.signed * 10 ^ (alignedExp a b - a.exp.toNat) + b.signed * 10 ^ (alignedExp a b - b.exp.toNat)

/-- Nothing in the addition exceeds 128 bits (R116). -/
abbrev AddFits (a b : Dec) : Prop :=
  alignedMag a (alignedExp a b) < 2 ^ 128 ∧ alignedMag b (alignedExp a b) < 2 ^ 128 ∧
    (alignedSum a b).natAbs < 2 ^ 128

/-- The sum as a record. Two zeros of one sign keep it and an exact cancellation is Positive (R116). -/
def addExact (a b : Dec) : Dec where
  coef := BitVec.ofNat 128 (alignedSum a b).natAbs
  exp := BitVec.ofNat 8 (alignedExp a b)
  state :=
    if alignedSum a b < 0 then 1
    else if 0 < alignedSum a b then 0
    else if a.state = b.state then a.state
    else 0

/-- Nothing in the multiplication exceeds 128 bits or the exponent range (R130). -/
abbrev MulFits (a b : Dec) : Prop :=
  a.exp.toNat + b.exp.toNat ≤ 19 ∧ a.coef.toNat * b.coef.toNat < 2 ^ 128

/-- The product as a record (R130). -/
def mulExact (a b : Dec) : Dec where
  coef := BitVec.ofNat 128 (a.coef.toNat * b.coef.toNat)
  exp := BitVec.ofNat 8 (a.exp.toNat + b.exp.toNat)
  state := signOf a b

/-- The scaled dividend fits 128 bits and the divisor 64 (R143). -/
abbrev DivFits (a b : Dec) : Prop :=
  a.coef.toNat * 10 ^ (19 + b.exp.toNat - a.exp.toNat) < 2 ^ 128 ∧ b.coef.toNat < 2 ^ 64

/-- The quotient at 19 places, cut off (R143). -/
def divExact (a b : Dec) : Dec where
  coef := BitVec.ofNat 128 (a.coef.toNat * 10 ^ (19 + b.exp.toNat - a.exp.toNat) / b.coef.toNat)
  exp := 19
  state := signOf a b

/-- The rescaled dividend fits 128 bits and the divisor 64 (R147). -/
abbrev QuoRemFits (a b : Dec) : Prop :=
  a.coef.toNat * 10 ^ (19 - a.exp.toNat) < 2 ^ 128 ∧ b.coef.toNat < 2 ^ 64

/-- Quotient and remainder of the rescaled dividend (R147). -/
def quoRemExact (a b : Dec) : Dec × Dec :=
  (⟨BitVec.ofNat 128 (a.coef.toNat * 10 ^ (19 - a.exp.toNat) / b.coef.toNat),
      BitVec.ofNat 8 (19 - b.exp.toNat), signOf a b⟩,
    ⟨BitVec.ofNat 128 (a.coef.toNat * 10 ^ (19 - a.exp.toNat) % b.coef.toNat), 19, a.state⟩)

/-- The fast attempt, one retry on the canonical operands, and then Overflow (R112): `r` is the exact result on
the operands as given if that fits, else on their canonical forms if that fits, else `overflow`. -/
def ThreePhases {α : Type} (fits : Dec → Dec → Prop) (exact : Dec → Dec → α) (overflow : α) (a b : Dec) (r : α) :
    Prop :=
  (fits a b → r = exact a b) ∧
    (¬fits a b → fits a.canonical b.canonical → r = exact a.canonical b.canonical) ∧
    (¬fits a b → ¬fits a.canonical b.canonical → r = overflow)

namespace Machine

/-- The register invariant: every value register holds a well-formed record (R38), and FAULT is one of the
codes 0 to 3 (R32). -/
abbrev State.Inv (s : State) : Prop :=
  s.va.wf = true ∧ s.vb.wf = true ∧ s.vq.wf = true ∧ s.vr.wf = true ∧ s.statusFault.toNat ≤ 3

/-- No fault is latched (R228): the run has not failed (R258), and a command written now is executed (R110). -/
abbrev State.Clean (s : State) : Prop := s.statusFault = 0

/-- A command written now is executed on well-formed operands (R110, R38). -/
abbrev State.Ready (s : State) : Prop := s.Clean ∧ s.va.wf = true ∧ s.vb.wf = true

/-- A command written now is executed on a finite operand VA (R110, R24). -/
abbrev State.ReadyA (s : State) : Prop := s.Clean ∧ s.va.finite = true

/-- A command written now is executed on finite operands VA and VB (R110, R24). -/
abbrev State.ReadyAB (s : State) : Prop := s.Clean ∧ s.va.finite = true ∧ s.vb.finite = true

end Machine

end Sys2Proof
end

