-- ==== Sys2Proof/Certificates/Slice0/Obligations.lean ====
section
/-! DEFINITION. The statements for the provers. Each docstring names the rule of the spec it formalises. -/

open Sys2Proof Sys2Proof.Machine

/-! ### Encodings -/

/-- R73, R80: the word a well-formed command assembles to decodes to that command, at every value of its precision
field. (Rests on the spec's own decisions D6, D7.) -/
def Obligations.EncodedWordDecodesBack : Prop :=
  ∀ i : Instr, i.wf = true → decode (encode i) = .ok i

/-- R73, R75: every word that decodes is the one encoding of the command it decodes to, and that command is
well-formed. (Rests on the spec's own decisions D6, D7.) -/
def Obligations.DecodedWordIsItsEncoding : Prop :=
  ∀ (w : CmdWord) (i : Instr), decode w = .ok i → i.wf = true ∧ encode i = w

/-- R75: the decoding procedure on the fields `op = w[7:0]` and `imm = w[15:8]`, total on all words: a rounding
command with `p = imm`, else a listed row with `imm = 0`, else illegal. (Rests on the spec's own decisions D6, D9.)
-/
def Obligations.DecodingProcedureIsTotal : Prop :=
  ∀ w : CmdWord, let op := w.toNat % 256; let imm := w.toNat / 256
    if 0x20 ≤ op ∧ op ≤ 0x27 then ∃ i, decode w = .ok i ∧ opcode i = op ∧ i.precision = some imm
    else if ((0x01 ≤ op ∧ op ≤ 0x06) ∨ (0x10 ≤ op ∧ op ≤ 0x15) ∨ (0x18 ≤ op ∧ op ≤ 0x1D)) ∧ imm = 0 then
      ∃ i, decode w = .ok i ∧ opcode i = op ∧ i.precision = none
    else ∃ e, decode w = .error e

/-- R73: a word spells a command exactly when `w & mask = match`, and a rounding command's precision is the word's
high byte. (Rests on the spec's own decisions D6, D7.) -/
def Obligations.WordSpellsCommandByMask : Prop :=
  ∀ (w : CmdWord) (i : Instr),
    decode w = .ok i ↔ (w &&& maskBits i = matchBits i ∧ ∀ p, i.precision = some p → p = w.toNat / 256)

/-- R73: words written out from the table, one per group, decode to their commands, and neighbours do not decode.
(Rests on the spec's own decisions D6, D7.) -/
def Obligations.WrittenOutWordsDecode : Prop :=
  decode 0b0000000000000001 = .ok .canon ∧ decode 0b0000000000000101 = .ok .powi ∧
    decode 0b0000000000010101 = .ok .quorem ∧ decode 0b0000000000011101 = .ok .quoremi ∧
    decode 0b0000001000100110 = .ok (.rbank 2) ∧ decode 0b1111111100100111 = .ok (.trunc 255) ∧
    decode 0b0000000000010110 = .error (.unlistedOpcode 0x16) ∧
    decode 0b0000000100010000 = .error (.nonzeroImm8 0x10 1)

/-- R76: the fields of a value register's image, and that image and record determine each other. (Rests on the
spec's own decision D3.) -/
def Obligations.ImageHoldsRecordFields : Prop :=
  (∀ v : Dec, v.image.extractLsb' 0 128 = v.coef ∧ v.image.extractLsb' 128 8 = v.exp ∧
      v.image.extractLsb' 136 8 = v.state ∧ Dec.ofImage v.image = v) ∧
    ∀ b : Image, (Dec.ofImage b).image = b

/-- R57: the 18 bytes of a serialised value register, least significant byte of the coefficient first, then the
exponent, then the state. (Rests on the spec's own decision D27.) -/
def Obligations.SerialisedRecordIsLittleEndian : Prop :=
  ∀ v : Dec, (bytesLE 18 v.image).length = 18 ∧
    (∀ k, k < 16 → (bytesLE 18 v.image)[k]? = some (v.coef.extractLsb' (8 * k) 8)) ∧
    (bytesLE 18 v.image)[16]? = some v.exp ∧ (bytesLE 18 v.image)[17]? = some v.state

/-- R77: N as a two's complement integer, by its formula, and its range. (Rests on the spec's own decision D8.) -/
def Obligations.IntegerRegisterIsTwosComplement : Prop :=
  ∀ n : IntWord, sint n = (n.toNat % 2 ^ 63 : ℕ) - 2 ^ 63 * (n.toNat / 2 ^ 63 : ℕ) ∧ sint n = n.toInt ∧
    -(2 ^ 63) ≤ sint n ∧ sint n ≤ 2 ^ 63 - 1

/-! ### The step, reset and the invariant -/

/-- R54, R110: a write to CMD of a word that decodes is the execution of that command on the state with the host's
action taken off its stream. That data wider than 16 bits counts as the write of its low 16 bits is the model's
choice (DESIGN CHOICE, log entry 5). (Rests on the spec's own decisions D1, D2, and on log entries 1, 5.) -/
def Obligations.StepRunsDecodedCommand : Prop :=
  ∀ (s : State) (rest : List HostAction) (data : Image) (i : Instr),
    s.pending = .write 3 data :: rest → decode (data.setWidth 16) = .ok i →
    step s = exec i { s with pending := rest }

/-- R37: after reset every bit of state is zero. The last clause is the model's own choice (log entries 1 and 2):
the host has nothing to do and has read nothing. (Rests on the spec's own decision D26, and on log entries 1, 2.) -/
def Obligations.ResetStateIsAllZero : Prop :=
  State.reset.va.image = 0 ∧ State.reset.vb.image = 0 ∧ State.reset.vq.image = 0 ∧ State.reset.vr.image = 0 ∧
    State.reset.va = Dec.zero ∧ State.reset.n = 0 ∧ State.reset.statusFault = 0 ∧
    State.reset.pending = [] ∧ State.reset.replies = []

/-- R250: the reset action zeroes every register and the latch, faulted or not, and is the only action that clears a
latched fault. (Rests on the spec's own decision D26, and on log entries 1, 2.) -/
def Obligations.ResetActionClearsEverything : Prop :=
  (∀ (s : State) (rest : List HostAction), s.pending = .reset :: rest →
      step s = .next ⟨⟨0, 0, 0⟩, ⟨0, 0, 0⟩, 0, ⟨0, 0, 0⟩, ⟨0, 0, 0⟩, 0, rest, s.replies⟩) ∧
    ∀ s t : State, ¬s.Clean → step s = .next t → t.Clean → ∃ rest, s.pending = .reset :: rest

/-- R38, R32: the invariant holds after reset. (Rests on the spec's own decision D26.) -/
def Obligations.ResetStateMeetsInvariant : Prop := State.reset.Inv

/-- R38, R32: every step keeps the invariant: the value registers hold well-formed records and FAULT is one of its
four codes, from every state where they do. (Rests on the spec's own decisions D25, D31.) -/
def Obligations.StepKeepsRegisterInvariant : Prop :=
  ∀ s t : State, s.Inv → core.step s = .next t → State.Inv t

/-- R257, R110: from every state that meets the invariant, whatever the host does next completes. (Rests on the
spec's own decisions D25, D32, and on log entries 1, 3.) -/
def Obligations.EveryHostActionCompletes : Prop :=
  ∀ s : State, s.Inv → ∃ t, step s = .next t

/-! ### The host port -/

/-- R53: what each read returns, that an unreadable index returns 0 and raises ACCESS unless a fault is already
latched, and that a read changes nothing else. (Rests on the spec's own decisions D2, D25, and on log entries 1, 2,
5.) -/
def Obligations.ReadReturnsRegister : Prop :=
  ∀ (s : State) (rest : List HostAction) (idx : RegIndex), s.pending = .read idx :: rest →
    step s = .next { s with
      pending := rest
      replies := s.replies ++ [
        if idx = 0 then s.va.image else if idx = 1 then s.vb.image
        else if idx = 2 then s.n.setWidth 144 else if idx = 4 then s.vq.image
        else if idx = 5 then s.vr.image else if idx = 6 then s.statusFault.setWidth 144
        else if idx = 7 then 0 else if idx = 8 then 1 else 0]
      statusFault := if (idx = 3 ∨ 9 ≤ idx.toNat) ∧ s.Clean then 3 else s.statusFault }

/-- R55: a write to VA or VB is turned away with OPERAND when its record is finite with an exponent above 19, and is
accepted in every other case. (Rests on the spec's own decision D31, and on log entry 1.) -/
def Obligations.OperandWriteIsChecked : Prop :=
  ∀ (s : State) (rest : List HostAction) (data : Image), s.Clean →
    let v : Dec := ⟨data.extractLsb' 0 128, data.extractLsb' 128 8, data.extractLsb' 136 8⟩
    let bad := v.state.toNat < 2 ∧ 19 < v.exp.toNat
    (s.pending = .write 0 data :: rest → step s = .next
      (if bad then { s with pending := rest, statusFault := 2 } else { s with pending := rest, va := v })) ∧
    (s.pending = .write 1 data :: rest → step s = .next
      (if bad then { s with pending := rest, statusFault := 2 } else { s with pending := rest, vb := v }))

/-- R54: a write to N stores the 64 bits written, whatever they are. (Rests on the spec's own decisions D2, D25, and
on log entries 1, 5.) -/
def Obligations.IntegerWriteIsStored : Prop :=
  ∀ (s : State) (rest : List HostAction) (d : IntWord), s.Clean → s.pending = .write 2 (d.setWidth 144) :: rest →
    step s = .next { s with pending := rest, n := d }

/-- R56: a write to a read-only register, a read of CMD and every access to an undefined index raise ACCESS and do
nothing else, but that the read returns 0. (Rests on the spec's own decision D25, and on log entries 1, 2.) -/
def Obligations.BadAccessLatchesAccess : Prop :=
  ∀ (s : State) (rest : List HostAction) (idx : RegIndex), s.Clean →
    (∀ data, s.pending = .write idx data :: rest → 4 ≤ idx.toNat →
      step s = .next { s with pending := rest, statusFault := 3 }) ∧
    (s.pending = .read idx :: rest → (idx = 3 ∨ 9 ≤ idx.toNat) →
      step s = .next { s with pending := rest, statusFault := 3, replies := s.replies ++ [0] })

/-- R74: a write to CMD of a word with an opcode outside the 26, or with a non-rounding opcode and imm8 not 0,
raises ILLCMD and changes nothing else. The all-zero and all-ones words are two of them. (Rests on the spec's own
decisions D6, D25, and on log entries 1, 5.) -/
def Obligations.IllegalWordLatchesIllcmd : Prop :=
  ∀ (s : State) (rest : List HostAction) (w : CmdWord), s.Clean →
    s.pending = .write 3 (w.setWidth 144) :: rest →
    (let op := w.toNat % 256
     op = 0x00 ∨ (0x07 ≤ op ∧ op ≤ 0x0F) ∨ op = 0x16 ∨ op = 0x17 ∨ op = 0x1E ∨ op = 0x1F ∨ 0x28 ≤ op ∨
      (op < 0x20 ∧ w.toNat / 256 ≠ 0) ∨ w = 0x0000 ∨ w = 0xFFFF) →
    step s = .next { s with pending := rest, statusFault := 1 }

/-- R229: with a fault latched every write is refused without effect, and reads go on without touching a register.
(Rests on the spec's own decision D25, and on log entries 1, 2.) -/
def Obligations.LatchedFaultRefusesWrites : Prop :=
  ∀ (s : State) (rest : List HostAction), ¬s.Clean →
    (∀ idx data, s.pending = .write idx data :: rest → step s = .next { s with pending := rest }) ∧
    ∀ idx, s.pending = .read idx :: rest →
      ∃ d, step s = .next { s with pending := rest, replies := s.replies ++ [d] }

/-- R228: a latched fault keeps its cause, and every register its value, over any step that is not the reset action.
(Rests on the spec's own decision D25, and on log entry 1.) -/
def Obligations.FirstFaultWinsUntilReset : Prop :=
  ∀ s t : State, ¬s.Clean → step s = .next t →
    (∃ rest, s.pending = .reset :: rest) ∨
      (t.statusFault = s.statusFault ∧ t.va = s.va ∧ t.vb = s.vb ∧ t.n = s.n ∧ t.vq = s.vq ∧ t.vr = s.vr)

/-- R227, R232: a step that raises a fault has no effect on a register but the latch, and no legal command is such a
step. That data wider than 16 bits counts as the write of its low 16 bits is the model's choice (DESIGN CHOICE, log
entry 5). (Rests on the spec's own decisions D1, D25, and on log entries 1, 5.) -/
def Obligations.FaultingActionHasNoOtherEffect : Prop :=
  ∀ s t : State, s.Clean → step s = .next t → ¬t.Clean →
    (t.va = s.va ∧ t.vb = s.vb ∧ t.n = s.n ∧ t.vq = s.vq ∧ t.vr = s.vr) ∧
      ∀ rest data i, s.pending = .write 3 data :: rest → decode (data.setWidth 16) ≠ .ok i

/-- R82: what the pseudo-instructions do on a block with no fault latched and well-formed results. MOV never faults.
For an integer outside the range of N (R77) the spec is silent, and that LDI loads it modulo 2^64 is the model's
choice (DESIGN CHOICE, log entry 15). (Rests on the spec's own decision D7, and on log entries 8, 15.) -/
def Obligations.PseudoInstructionsExpand : Prop :=
  ∀ s : State, s.Inv → s.Clean →
    runPseudo (.mov .va .vq) s = .next { s with va := s.vq, replies := s.replies ++ [s.vq.image] } ∧
    runPseudo (.mov .va .vr) s = .next { s with va := s.vr, replies := s.replies ++ [s.vr.image] } ∧
    runPseudo (.mov .vb .vq) s = .next { s with vb := s.vq, replies := s.replies ++ [s.vq.image] } ∧
    runPseudo (.mov .vb .vr) s = .next { s with vb := s.vr, replies := s.replies ++ [s.vr.image] } ∧
    runPseudo (.ldz .va) s = .next { s with va := ⟨0, 0, 0⟩, replies := s.replies ++ [0] } ∧
    runPseudo (.ldz .vb) s = .next { s with vb := ⟨0, 0, 0⟩, replies := s.replies ++ [0] } ∧
    runPseudo (.ldo .va) s = .next { s with va := ⟨1, 0, 0⟩, replies := s.replies ++ [1] } ∧
    runPseudo (.ldo .vb) s = .next { s with vb := ⟨1, 0, 0⟩, replies := s.replies ++ [1] } ∧
    (∀ k : ℤ, runPseudo (.ldi k) s = .next { s with n := BitVec.ofInt 64 k }) ∧
    ∀ i : Instr, i.wf = true → runPseudo (.cmd i) s = exec i s

/-! ### What every command does and leaves -/

/-- R39, R110: no command writes VA, VB, N or STATUS, nor what the host has to do or has read. (Rests on the spec's
own decision D10, and on log entries 1, 2.) -/
def Obligations.CommandsPreserveOperands : Prop :=
  ∀ (i : Instr) (s t : State), exec i s = .next t →
    t.va = s.va ∧ t.vb = s.vb ∧ t.n = s.n ∧ t.statusFault = s.statusFault ∧ t.pending = s.pending ∧
      t.replies = s.replies

/-- R110, R254: a command other than QUOREM and QUOREMI leaves VR as it was. (Rests on the spec's own decision D10.)
-/
def Obligations.OnlyQuotientRemainderWritesVR : Prop :=
  ∀ (i : Instr) (s t : State), i ≠ .quorem → i ≠ .quoremi → exec i s = .next t → t.vr = s.vr

/-- R110, R229: with a fault latched a command does nothing. (Rests on the spec's own decision D25.) -/
def Obligations.LatchedFaultStopsCommands : Prop :=
  ∀ (i : Instr) (s : State), ¬s.Clean → exec i s = .next s

/-- R36: a command leaves nothing behind but VQ and VR, and its result depends on the command and on VA, VB and N
alone, not on VQ, VR or earlier commands. -/
def Obligations.ResultDependsOnOperandsOnly : Prop :=
  ∀ (i : Instr) (s s' t t' : State), s.Clean → s'.Clean → s.va = s'.va → s.vb = s'.vb → s.n = s'.n →
    exec i s = .next t → exec i s' = .next t' →
    t = { s with vq := t.vq, vr := t.vr } ∧ t.vq = t'.vq ∧ (i = .quorem ∨ i = .quoremi → t.vr = t'.vr)

/-- R73, R201, R202: the commands other than ADD, SUB, MUL, DIV, MOD and QUOREM do not read VB, those other than
POWI, FROMI and the `*I` forms do not read N, and FROMI does not read VA. (Rests on the spec's own decisions D7,
D22, D23.) -/
def Obligations.CommandsReadTheirOperandsOnly : Prop :=
  ∀ (i : Instr) (s t : State), s.Clean → exec i s = .next t →
    (i ∉ [.add, .sub, .mul, .div, .mod, .quorem] → ∀ v, exec i { s with vb := v } = .next { t with vb := v }) ∧
    (i ∉ [.powi, .fromi, .addi, .subi, .muli, .divi, .modi, .quoremi] →
      ∀ d, exec i { s with n := d } = .next { t with n := d }) ∧
    (i = .fromi → ∀ v, exec i { s with va := v } = .next { t with va := v })

/-- R222: an error operand is returned whole, VA before VB, to VQ, and to VR too by QUOREM and QUOREMI, whatever its
other two fields hold. FROMI never gives an error value. -/
def Obligations.ErrorOperandsAreAbsorbed : Prop :=
  ∀ (i : Instr) (s : State), s.Ready →
    (i ≠ .fromi → s.va.isError = true →
      exec i s = .next { s with vq := s.va, vr := if i = .quorem ∨ i = .quoremi then s.va else s.vr }) ∧
    (i ∈ [.add, .sub, .mul, .div, .mod, .quorem] → s.va.isError = false → s.vb.isError = true →
      exec i s = .next { s with vq := s.vb, vr := if i = .quorem then s.vb else s.vr }) ∧
    ∃ b, exec .fromi s = .next { s with vq := b } ∧ b.isError = false

/-- R221, R148: on finite operands a command delivers a finite value or one of three markers, each only where the
taxonomy says: SqrtNegative from SQRT, DivisionByZero from the division family and POWI, Overflow from the
arithmetic commands and POWI, and never NaN or a reserved code. A new marker has zero in its other fields. The same
holds of the VR that QUOREM and QUOREMI write, and where either of their two results is a marker both are the same
record. (Rests on the spec's own decisions D13, D15, D16, D19, D20, D21.) -/
def Obligations.MarkersHaveTheirSources : Prop :=
  ∀ (i : Instr) (s t : State), s.ReadyAB → exec i s = .next t →
    (t.vq.state = 0 ∨ t.vq.state = 1 ∨ t.vq.state = 3 ∨ t.vq.state = 4 ∨ t.vq.state = 5) ∧
    (t.vq.state = 5 → i = .sqrt) ∧
    (t.vq.state = 4 → i ∈ [.div, .mod, .quorem, .divi, .modi, .quoremi, .powi]) ∧
    (t.vq.state = 3 → i ∈ [.add, .sub, .mul, .div, .mod, .quorem, .addi, .subi, .muli, .divi, .modi, .quoremi,
      .powi]) ∧
    (2 ≤ t.vq.state.toNat → t.vq.coef = 0 ∧ t.vq.exp = 0) ∧
    (i = .quorem ∨ i = .quoremi →
      (t.vr.state = 0 ∨ t.vr.state = 1 ∨ t.vr.state = 3 ∨ t.vr.state = 4) ∧
      (2 ≤ t.vr.state.toNat → t.vr.coef = 0 ∧ t.vr.exp = 0) ∧
      (2 ≤ t.vq.state.toNat ∨ 2 ≤ t.vr.state.toNat → t.vr = t.vq))

/-! ### Canonicalization -/

/-- R100: CANON returns an error value as it is. It divides a finite coefficient by ten as often as the exponent and
the trailing zeros allow, and keeps the sign. -/
def Obligations.CanonStripsTrailingZeros : Prop :=
  ∀ s : State, s.Clean → s.va.wf = true → ∃ r, exec .canon s = .next { s with vq := r } ∧
    if s.va.isError = true then r = s.va
    else ∃ c k : ℕ, k ≤ s.va.exp.toNat ∧ s.va.coef.toNat = c * 10 ^ k ∧
      (s.va.exp.toNat - k = 0 ∨ c % 10 ≠ 0) ∧
      r = ⟨BitVec.ofNat 128 c, BitVec.ofNat 8 (s.va.exp.toNat - k), s.va.state⟩

/-- R102: CANON keeps the quantity, gives a canonical record, does nothing to its own result, and gives equal
records for equal nonzero quantities. (Rests on the spec's own derivation in R102.) -/
def Obligations.CanonicalFormIsUnique : Prop :=
  ∀ s t : State, s.ReadyA → exec .canon s = .next t →
    t.vq.val = s.va.val ∧ (t.vq.exp = 0 ∨ t.vq.coef.toNat % 10 ≠ 0) ∧
      exec .canon { t with va := t.vq } = .next { t with va := t.vq } ∧
      ∀ s' t' : State, s'.ReadyA → exec .canon s' = .next t' → s.va.val ≠ 0 → s'.va.val = s.va.val →
        t'.vq = t.vq

/-! ### The adder/subtractor -/

/-- R112, R116, R117: ADD returns an error operand, left first. On finite operands it delivers the exact signed sum
at the aligned exponent, from the fast attempt or the canonical retry, else Overflow. (Rests on the spec's own
decisions D11, D13.) -/
def Obligations.AddDeliversAlignedSum : Prop :=
  ∀ s : State, s.Ready → ∃ r, exec .add s = .next { s with vq := r } ∧
    if s.va.isError = true then r = s.va
    else if s.vb.isError = true then r = s.vb
    else ThreePhases AddFits addExact ⟨0, 0, 3⟩ s.va s.vb r

/-- R119: SUB is ADD of the right operand with its sign toggled, except that an error operand is returned as it is.
(Rests on the spec's own decision D14.) -/
def Obligations.SubIsAddOfToggledOperand : Prop :=
  ∀ s : State, s.Ready →
    (s.va.isError = true → exec .sub s = .next { s with vq := s.va }) ∧
    (s.va.isError = false → s.vb.isError = true → exec .sub s = .next { s with vq := s.vb }) ∧
    (s.va.isError = false → s.vb.isError = false →
      ∃ r, exec .sub s = .next { s with vq := r } ∧
        ∀ b : Dec, b = ⟨s.vb.coef, s.vb.exp, 1 - s.vb.state⟩ →
          exec .add { s with vb := b } = .next { s with vb := b, vq := r })

/-- R121: addition is commutative on finite operands, record for record, a finite sum or difference is exact, and
`a.Sub(b).Add(b)` has the quantity of `a` where neither step overflows. (Rests on the spec's own decisions D13, D14
and its derivation in R121.) -/
def Obligations.AdditionIsExactAndCommutative : Prop :=
  ∀ s : State, s.ReadyAB → ∃ r d, exec .add s = .next { s with vq := r } ∧ exec .sub s = .next { s with vq := d } ∧
    exec .add { s with va := s.vb, vb := s.va } = .next { s with va := s.vb, vb := s.va, vq := r } ∧
    (r.isError = false → r.val = s.va.val + s.vb.val) ∧
    (d.isError = false → d.val = s.va.val - s.vb.val) ∧
    (d.isError = false → ∃ q, exec .add { s with va := d } = .next { s with va := d, vq := q } ∧
      (q.isError = false → q.val = s.va.val))

/-! ### The multiplier -/

/-- R130, R131: MUL returns an error operand, left first, then `Zero` for a zero operand, else the exact product at
the sum of the exponents, from the fast attempt or the canonical retry, else Overflow. -/
def Obligations.MulDeliversExactProduct : Prop :=
  ∀ s : State, s.Ready → ∃ r, exec .mul s = .next { s with vq := r } ∧
    if s.va.isError = true then r = s.va
    else if s.vb.isError = true then r = s.vb
    else if s.va.coef = 0 ∨ s.vb.coef = 0 then r = ⟨0, 0, 0⟩
    else ThreePhases MulFits mulExact ⟨0, 0, 3⟩ s.va s.vb r

/-- R133: a finite product has exactly the product of the quantities, and MUL is commutative on finite operands,
record for record. (Rests on the spec's own derivation in R133.) -/
def Obligations.MultiplicationIsExactAndCommutative : Prop :=
  ∀ s : State, s.ReadyAB → ∃ r, exec .mul s = .next { s with vq := r } ∧
    exec .mul { s with va := s.vb, vb := s.va } = .next { s with va := s.vb, vb := s.va, vq := r } ∧
    (r.isError = false → r.val = s.va.val * s.vb.val)

/-! ### The divider -/

/-- R140: the checks before a division in their order, for the six commands: an error operand, left first, a zero
divisor whatever the dividend, then a zero dividend. QUOREM and QUOREMI give the same record twice (R148), and the
divisor of DIVI, MODI and QUOREMI is the converted N, zero exactly for N = 0 and never an error (R200, R202). (Rests
on the spec's own decisions D19, D22, D23, which log entry 12 takes as rules.) -/
def Obligations.DivisionChecksInOrder : Prop :=
  ∀ s : State, s.Clean → s.va.wf = true →
    (s.vb.wf = true → s.va.isError = true ∨ s.vb.isError = true ∨ s.vb.coef = 0 ∨ s.va.coef = 0 →
      ∃ r : Dec, r = (if s.va.isError = true then s.va else if s.vb.isError = true then s.vb
          else if s.vb.coef = 0 then ⟨0, 0, 4⟩ else ⟨0, 0, 0⟩) ∧
        exec .div s = .next { s with vq := r } ∧ exec .mod s = .next { s with vq := r } ∧
        exec .quorem s = .next { s with vq := r, vr := r }) ∧
    (s.va.isError = true ∨ s.n = 0 ∨ s.va.coef = 0 →
      ∃ r : Dec, r = (if s.va.isError = true then s.va else if s.n = 0 then ⟨0, 0, 4⟩ else ⟨0, 0, 0⟩) ∧
        exec .divi s = .next { s with vq := r } ∧ exec .modi s = .next { s with vq := r } ∧
        exec .quoremi s = .next { s with vq := r, vr := r })

/-- R112, R143, R144: on finite nonzero operands DIV delivers the scaled dividend divided by the divisor's
coefficient, cut off, at exponent 19, from the fast attempt or the canonical retry, else Overflow. (Rests on the
spec's own decisions D15, D17.) -/
def Obligations.DivDeliversScaledQuotient : Prop :=
  ∀ s : State, s.ReadyAB → s.va.coef ≠ 0 → s.vb.coef ≠ 0 → ∃ r, exec .div s = .next { s with vq := r } ∧
    ThreePhases DivFits divExact ⟨0, 0, 3⟩ s.va s.vb r

/-- R152 (a): whenever DIV of finite nonzero values does not overflow, its coefficient is the true quotient's
magnitude truncated at 19 decimal places, its exponent 19, and its sign the XOR of the operands'. (Rests on the
spec's own decisions D15, D17, D18 and its derivation in R152 (a).) -/
def Obligations.DivIsTruncatedTrueQuotient : Prop :=
  ∀ s : State, s.ReadyAB → s.va.coef ≠ 0 → s.vb.coef ≠ 0 → ∃ r, exec .div s = .next { s with vq := r } ∧
    (r = ⟨0, 0, 3⟩ ∨
      ((r.coef.toNat : ℤ) = ⌊|s.va.val| / |s.vb.val| * 10 ^ 19⌋ ∧ r.exp = 19 ∧
        r.state = if s.va.state = s.vb.state then 0 else 1))

/-- R152 (b): DIV is a function of the operands' quantities where it does not overflow. (Rests on the spec's own
derivation in R152 (b).) -/
def Obligations.DivDependsOnQuantityOnly : Prop :=
  ∀ s s' t t' : State, s.ReadyAB → s'.ReadyAB → s.va.val = s'.va.val → s.vb.val = s'.vb.val →
    exec .div s = .next t → exec .div s' = .next t' → t.vq.isError = false → t'.vq.isError = false →
    t.vq = t'.vq

/-- R112, R147, R148: on finite nonzero operands QUOREM delivers quotient and remainder of the dividend rescaled to
exponent 19, from the fast attempt or the canonical retry, else Overflow to both registers. (Rests on the spec's own
decisions D16, D17, D18, D19.) -/
def Obligations.QuoRemDeliversPair : Prop :=
  ∀ s : State, s.ReadyAB → s.va.coef ≠ 0 → s.vb.coef ≠ 0 →
    ∃ r : Dec × Dec, exec .quorem s = .next { s with vq := r.1, vr := r.2 } ∧
      ThreePhases QuoRemFits quoRemExact (⟨0, 0, 3⟩, ⟨0, 0, 3⟩) s.va s.vb r

/-- R150: MOD delivers the remainder component of QUOREM, on every well-formed operands, and leaves VR. -/
def Obligations.ModIsRemainderOfQuoRem : Prop :=
  ∀ s : State, s.Ready → ∃ q r, exec .quorem s = .next { s with vq := q, vr := r } ∧
    exec .mod s = .next { s with vq := r }

/-- R152 (c), R142: whenever QUOREM of a finite dividend and a finite nonzero divisor gives a finite pair, the
dividend is exactly quotient times divisor plus remainder, the remainder's coefficient is below the divisor's, and
for a nonzero dividend the signs are those of R142. (Rests on the spec's own decisions D16, D18 and its derivation
in R152 (c).) -/
def Obligations.QuotientTimesDivisorPlusRemainder : Prop :=
  ∀ s : State, s.ReadyAB → s.vb.coef ≠ 0 → ∃ q r, exec .quorem s = .next { s with vq := q, vr := r } ∧
    (q.isError = false → r.isError = false ∧ s.va.val = q.val * s.vb.val + r.val ∧
      r.coef.toNat < s.vb.coef.toNat ∧
      (s.va.coef ≠ 0 → q.state = (if s.va.state = s.vb.state then 0 else 1) ∧ r.state = s.va.state))

/-- R152 (c): the reconstruction by commands. Where QUOREM gives a finite pair, MUL of the quotient by the divisor
does not overflow, nor does ADD of the remainder to that product, and the sum has the dividend's quantity. (Rests on
the spec's own derivation in R152 (c).) -/
def Obligations.ReconstructionNeverOverflows : Prop :=
  ∀ s : State, s.ReadyAB → s.vb.coef ≠ 0 → ∃ q r, exec .quorem s = .next { s with vq := q, vr := r } ∧
    (q.isError = false → ∃ p m : Dec,
      exec .mul { s with va := q } = .next { s with va := q, vq := p } ∧ p.isError = false ∧
      exec .add { s with va := p, vb := r } = .next { s with va := p, vb := r, vq := m } ∧ m.isError = false ∧
      m.val = s.va.val)

/-- R152 (f): DIV's result and QUOREM's quotient are the same record when the divisor's exponent is 0. (Rests on the
spec's own decisions D15, D16 and its derivation in R152 (f).) -/
def Obligations.DivIsQuotientForIntegerDivisor : Prop :=
  ∀ s : State, s.Ready → s.vb.exp = 0 → ∃ q r, exec .div s = .next { s with vq := q } ∧
    exec .quorem s = .next { s with vq := q, vr := r }

/-! ### ABS, NEG, SQRT and POWI -/

/-- R160: ABS of a finite value is the same record with the Positive state, and an error value is returned
unchanged. -/
def Obligations.AbsClearsTheSign : Prop :=
  ∀ s : State, s.Clean → s.va.wf = true → exec .abs s = .next
    { s with vq := if 2 ≤ s.va.state.toNat then s.va else ⟨s.va.coef, s.va.exp, 0⟩ }

/-- R162: NEG of a finite value is the same record with the other sign, a zero coefficient included, and an error
value is returned unchanged. R163 (NEG twice is the value): the last clause. -/
def Obligations.NegTogglesTheSign : Prop :=
  ∀ s : State, s.Clean → s.va.wf = true → ∃ r, exec .neg s = .next { s with vq := r } ∧
    r = (if s.va.state = 0 then ⟨s.va.coef, s.va.exp, 1⟩
      else if s.va.state = 1 then ⟨s.va.coef, s.va.exp, 0⟩ else s.va) ∧
    exec .neg { s with va := r } = .next { s with va := r, vq := s.va }

/-- R164, R165: SQRT with its special cases in order, an error operand, zero of either sign, a negative value, the
quantity 1, and else the integer root of the radicand at 19 places. (Rests on the spec's own decision D20.) -/
def Obligations.SqrtIsFloorRoot : Prop :=
  ∀ s : State, s.Clean → s.va.wf = true → ∃ r, exec .sqrt s = .next { s with vq := r } ∧
    if 2 ≤ s.va.state.toNat then r = s.va
    else if s.va.coef = 0 then r = ⟨0, 0, 0⟩
    else if s.va.state = 1 then r = ⟨0, 0, 5⟩
    else if s.va.coef.toNat = 10 ^ s.va.exp.toNat then r = ⟨1, 0, 0⟩
    else r.exp = 19 ∧ r.state = 0 ∧
      r.coef.toNat * r.coef.toNat ≤ s.va.coef.toNat * 10 ^ (38 - s.va.exp.toNat) ∧
      s.va.coef.toNat * 10 ^ (38 - s.va.exp.toNat) < (r.coef.toNat + 1) * (r.coef.toNat + 1)

/-- R168 (c): the root does not depend on how the operand is represented. (Rests on the spec's own decision D20 and
its derivation in R168 (c).) -/
def Obligations.SqrtDependsOnQuantityOnly : Prop :=
  ∀ s s' t t' : State, s.ReadyA → s'.ReadyA → s.va.val = s'.va.val → exec .sqrt s = .next t →
    exec .sqrt s' = .next t' → t.vq = t'.vq

/-- R170: POWI delivers PowInt of the base and the signed exponent, and PowInt obeys the recursion of the rule: the
error test first, the reciprocal for a negative exponent, Overflow for the most negative one, and squaring with a
trailing multiply for an odd exponent. (Rests on the spec's own decision D21.) -/
def Obligations.PowiFollowsTheRecursion : Prop :=
  (∀ s : State, s.Clean → s.va.wf = true → exec .powi s = .next { s with vq := powOp s.va (sint s.n) }) ∧
    ∀ (x : Dec) (n : ℤ), -(2 ^ 63) ≤ n → n ≤ 2 ^ 63 - 1 →
      powOp x n =
        if x.isError = true then x
        else if n = -(2 ^ 63) then ⟨0, 0, 3⟩
        else if n < 0 then divOp ⟨1, 0, 0⟩ (powOp x (-n))
        else if n = 0 then ⟨1, 0, 0⟩
        else if n = 1 then x
        else if n % 2 = 0 then powOp (mulOp x x) (n / 2)
        else mulOp (powOp (mulOp x x) (n / 2)) x

/-- R172: a finite power with an exponent that is not negative has exactly the quantity of the power, and with a
negative exponent it is the reciprocal of the power truncated toward zero at 19 places, with the power's sign.
(Rests on the spec's own decision D21.) -/
def Obligations.FinitePowersAreExact : Prop :=
  ∀ s : State, s.ReadyA → ∃ r, exec .powi s = .next { s with vq := r } ∧
    (r.isError = false →
      (0 ≤ sint s.n → r.val = s.va.val ^ (sint s.n).toNat) ∧
      (sint s.n < 0 → (r.coef.toNat : ℤ) = ⌊1 / |s.va.val| ^ (-sint s.n).toNat * 10 ^ 19⌋ ∧ r.exp = 19 ∧
        r.state = if s.va.val ^ (-sint s.n).toNat < 0 then 1 else 0))

/-! ### The rounder -/

/-- R180, R183: what the eight rounding commands deliver for a finite value with more than `p` places: the quotient
by the factor, one more where the mode's condition holds, at exponent `p`, with the operand's sign. (Rests on the
spec's own decisions D9, D24.) -/
def Obligations.RoundingIncrementsByItsMode : Prop :=
  ∀ (s : State) (p : ℕ), s.ReadyA → p < s.va.exp.toNat →
    let f := 10 ^ (s.va.exp.toNat - p)
    let q := s.va.coef.toNat / f
    let r := s.va.coef.toNat % f
    let h := f / 2
    let out (inc : Prop) [Decidable inc] : Host.Outcome State Fault Refusal := .next
      { s with vq := ⟨BitVec.ofNat 128 (if inc then q + 1 else q), BitVec.ofNat 8 p, s.va.state⟩ }
    exec (.rdown p) s = out (s.va.state = 1 ∧ 0 < r) ∧
    exec (.rup p) s = out (s.va.state = 0 ∧ 0 < r) ∧
    exec (.rtz p) s = out False ∧
    exec (.rafz p) s = out (0 < r) ∧
    exec (.rhtz p) s = out (h < r) ∧
    exec (.rhafz p) s = out (h ≤ r) ∧
    exec (.rbank p) s = out (h < r ∨ (r = h ∧ q % 2 = 1)) ∧
    exec (.trunc p) s = out False

/-- R192 (a), R180: a finite value with at most `p` places is returned unchanged by all eight commands, for every
`p` however large. (Rests on the spec's own decision D24 and its derivation in R192 (a).) -/
def Obligations.RoundingIsIdempotent : Prop :=
  ∀ (s : State) (p : ℕ), s.ReadyA → s.va.exp.toNat ≤ p →
    ∀ i ∈ [Instr.rdown p, .rup p, .rtz p, .rafz p, .rhtz p, .rhafz p, .rbank p, .trunc p],
      exec i s = .next { s with vq := s.va }

/-- R192 (b), (c): the quantity each mode delivers, for a finite value with more than `p` places: floor, ceiling,
toward zero, away from zero, and the nearest multiple of `10^-p` with a tie toward zero, away from zero or to the
even coefficient, always at exponent `p` and within one unit of the last place. (Rests on the spec's own decision D24 and its derivation in
R192 (b), (c).) -/
def Obligations.RoundedQuantityIsAsNamed : Prop :=
  ∀ (s : State) (p : ℕ), s.ReadyA → p < s.va.exp.toNat →
    ∃ down up tz az htz haz bank tr : Dec,
      (exec (.rdown p) s = .next { s with vq := down } ∧ exec (.rup p) s = .next { s with vq := up } ∧
        exec (.rtz p) s = .next { s with vq := tz } ∧ exec (.rafz p) s = .next { s with vq := az } ∧
        exec (.rhtz p) s = .next { s with vq := htz } ∧ exec (.rhafz p) s = .next { s with vq := haz } ∧
        exec (.rbank p) s = .next { s with vq := bank } ∧ exec (.trunc p) s = .next { s with vq := tr }) ∧
      (∀ v ∈ [down, up, tz, az, htz, haz, bank, tr],
        v.isError = false ∧ v.exp = BitVec.ofNat 8 p ∧ v.state = s.va.state ∧ |v.val - s.va.val| < 1 / 10 ^ p) ∧
      down.val = (⌊s.va.val * 10 ^ p⌋ : ℚ) / 10 ^ p ∧
      up.val = (⌈s.va.val * 10 ^ p⌉ : ℚ) / 10 ^ p ∧
      |tz.val| = (⌊|s.va.val| * 10 ^ p⌋ : ℚ) / 10 ^ p ∧
      |tr.val| = (⌊|s.va.val| * 10 ^ p⌋ : ℚ) / 10 ^ p ∧
      |az.val| = (⌈|s.va.val| * 10 ^ p⌉ : ℚ) / 10 ^ p ∧
      |htz.val| = (⌈|s.va.val| * 10 ^ p - 1 / 2⌉ : ℚ) / 10 ^ p ∧
      |haz.val| = (⌊|s.va.val| * 10 ^ p + 1 / 2⌋ : ℚ) / 10 ^ p ∧
      |bank.val - s.va.val| ≤ 1 / 2 / 10 ^ p ∧
      (|bank.val - s.va.val| = 1 / 2 / 10 ^ p → bank.coef.toNat % 2 = 0)

/-- R186: RTZ and TRUNC are the same operation, for every operand and every precision. (Rests on the spec's own
decision D24.) -/
def Obligations.RtzIsTrunc : Prop :=
  ∀ (s : State) (p : ℕ), exec (.rtz p) s = exec (.trunc p) s

/-! ### The integer operand -/

/-- R200, R201: FROMI delivers the integer exactly, at exponent 0, as a canonical record with a coefficient below
`2^64`, and `Zero` for 0. VA and VB may hold anything. (Rests on the spec's own decision D22.) -/
def Obligations.FromiConvertsExactly : Prop :=
  ∀ s : State, s.Clean → ∃ r, exec .fromi s = .next { s with vq := r } ∧
    r.val = (sint s.n : ℚ) ∧ r.exp = 0 ∧ r.coef.toNat = (sint s.n).natAbs ∧ r.coef.toNat < 2 ^ 64 ∧
    r.state = (if sint s.n < 0 then 1 else 0) ∧ (s.n = 0 → r = ⟨0, 0, 0⟩)

/-- R202: each `*I` command delivers what its register twin delivers with the converted integer in VB, and leaves VB
as it was. (Rests on the spec's own decisions D22, D23.) -/
def Obligations.IntegerFormsEqualTheirTwins : Prop :=
  ∀ s : State, s.Clean → s.va.wf = true → ∃ b : Dec, exec .fromi s = .next { s with vq := b } ∧
    (∃ r, exec .addi s = .next { s with vq := r } ∧
      exec .add { s with vb := b } = .next { s with vb := b, vq := r }) ∧
    (∃ r, exec .subi s = .next { s with vq := r } ∧
      exec .sub { s with vb := b } = .next { s with vb := b, vq := r }) ∧
    (∃ r, exec .muli s = .next { s with vq := r } ∧
      exec .mul { s with vb := b } = .next { s with vb := b, vq := r }) ∧
    (∃ r, exec .divi s = .next { s with vq := r } ∧
      exec .div { s with vb := b } = .next { s with vb := b, vq := r }) ∧
    (∃ r, exec .modi s = .next { s with vq := r } ∧
      exec .mod { s with vb := b } = .next { s with vb := b, vq := r }) ∧
    (∃ q r, exec .quoremi s = .next { s with vq := q, vr := r } ∧
      exec .quorem { s with vb := b } = .next { s with vb := b, vq := q, vr := r })
end

