-- ==== Sys2Proof/Laws/Value.lean ====
section
/-! SUPPORT. What the records built by the operations hold, and what the shared operations of Operands.lean can
do: the canonical form (R100), the error short-circuit (R111), the two tiers (R112). -/

namespace Sys2Proof

@[simp] theorem Dec.ofNat_state (c e : Nat) (st : Byte) : (Dec.ofNat c e st).state = st := rfl

@[simp] theorem Dec.ofNat_exp (c e : Nat) (st : Byte) : (Dec.ofNat c e st).exp = BitVec.ofNat 8 e := rfl

@[simp] theorem Dec.ofNat_coef (c e : Nat) (st : Byte) : (Dec.ofNat c e st).coef = BitVec.ofNat 128 c := rfl

/-- A coefficient in range is kept. -/
theorem Dec.ofNat_coef_toNat {c : Nat} (h : c < 2 ^ 128) (e : Nat) (st : Byte) :
    (Dec.ofNat c e st).coef.toNat = c := by
  rw [Dec.ofNat_coef, BitVec.toNat_ofNat, Nat.mod_eq_of_lt h]

/-- An exponent in range is kept. -/
theorem Dec.ofNat_exp_toNat {e : Nat} (h : e < 2 ^ 8) (c : Nat) (st : Byte) :
    (Dec.ofNat c e st).exp.toNat = e := by
  rw [Dec.ofNat_exp, BitVec.toNat_ofNat, Nat.mod_eq_of_lt h]

/-- A record is rebuilt from its own fields. -/
@[simp] theorem Dec.ofNat_toNat (v : Dec) : Dec.ofNat v.coef.toNat v.exp.toNat v.state = v := by
  simp [Dec.ofNat, Config.coefBits]

theorem Dec.isError_iff (v : Dec) : v.isError = true ↔ 2 ≤ v.state.toNat :=
  decide_eq_true_iff

theorem Dec.isError_eq_false_iff (v : Dec) : v.isError = false ↔ v.state.toNat < 2 :=
  decide_eq_false_iff_not.trans Nat.not_le

/-- A finite value is Positive or Negative (R23, R24). -/
theorem Dec.state_of_not_isError {v : Dec} (h : v.isError = false) :
    v.state = Dec.positive ∨ v.state = Dec.negative := by
  rw [Dec.isError_eq_false_iff] at h
  have : v.state.toNat = 0 ∨ v.state.toNat = 1 := by omega
  rcases this with h | h
  · exact .inl (BitVec.eq_of_toNat_eq h)
  · exact .inr (BitVec.eq_of_toNat_eq h)

theorem Dec.wf_iff (v : Dec) : v.wf = true ↔ v.isError = true ∨ v.exp.toNat ≤ 19 := by
  rw [Dec.wf, Bool.or_eq_true]
  exact or_congr Iff.rfl decide_eq_true_iff

/-- The exponent of a finite well-formed record (R26). -/
theorem Dec.exp_le_of_wf {v : Dec} (hw : v.wf = true) (he : v.isError = false) : v.exp.toNat ≤ 19 := by
  rcases (Dec.wf_iff v).1 hw with h | h
  · rw [he] at h; cases h
  · exact h

/-- A record built with an exponent of at most EXP_MAX is well-formed (R26). -/
theorem Dec.ofNat_wf {e : Nat} (h : e ≤ 19) (c : Nat) (st : Byte) : (Dec.ofNat c e st).wf = true := by
  rw [Dec.wf_iff, Dec.ofNat_exp_toNat (by omega)]
  exact .inr h

@[simp] theorem Dec.err_wf (m : Byte) : (Dec.err m).wf = true := by
  simp [Dec.wf_iff, Dec.err]

@[simp] theorem Dec.zero_wf : Dec.zero.wf = true := by decide

@[simp] theorem Dec.one_wf : Dec.one.wf = true := by decide

theorem Dec.isZero_iff (v : Dec) : v.isZero = true ↔ v.coef.toNat = 0 := by
  rw [Dec.isZero, beq_iff_eq]
  exact ⟨fun h => by simp [h], fun h => BitVec.eq_of_toNat_eq h⟩

/-- A toggled finite value is finite, with the other sign (R25). -/
theorem Dec.toggle_isError {v : Dec} (h : v.isError = false) : v.toggle.isError = false := by
  rcases Dec.state_of_not_isError h with h | h <;> simp [Dec.toggle, Dec.isError, h] <;> decide

theorem Dec.toggle_wf {v : Dec} (h : v.wf = true) (he : v.isError = false) : v.toggle.wf = true := by
  rw [Dec.wf_iff]
  exact .inr (show v.exp.toNat ≤ 19 from Dec.exp_le_of_wf h he)

/-- The XOR of two one-bit signs is a sign (R130). -/
theorem Dec.signXor_finite {a b : Dec} (ha : a.isError = false) (hb : b.isError = false) :
    a.signXor b = if a.state = b.state then Dec.positive else Dec.negative := by
  rcases Dec.state_of_not_isError ha with h | h <;> rcases Dec.state_of_not_isError hb with h' | h' <;>
    simp [Dec.signXor, h, h', Dec.positive, Dec.negative]

/-! ### The canonical form -/

/-- What the loop of `Canonical` leaves: a smaller exponent, the coefficient divided by as many tens, and no
further ten to remove (R100, R102). -/
theorem canonicalLoop_spec (c e : Nat) :
    (canonicalLoop c e).2 ≤ e ∧ c = (canonicalLoop c e).1 * 10 ^ (e - (canonicalLoop c e).2) ∧
      ((canonicalLoop c e).2 = 0 ∨ (canonicalLoop c e).1 % 10 ≠ 0) := by
  induction e generalizing c with
  | zero => simp [canonicalLoop]
  | succ e ih =>
    unfold canonicalLoop
    split
    case isTrue h =>
      obtain ⟨h1, h2, h3⟩ := ih (c / 10)
      refine ⟨by omega, ?_, h3⟩
      have hc : c = c / 10 * 10 := by omega
      have hs : e + 1 - (canonicalLoop (c / 10) e).2 = (e - (canonicalLoop (c / 10) e).2) + 1 := by omega
      rw [hs, pow_succ, ← mul_assoc, ← h2, ← hc]
    case isFalse h => exact ⟨le_rfl, by simp, .inr h⟩

/-- The loop never makes the coefficient larger. -/
theorem canonicalLoop_le (c e : Nat) : (canonicalLoop c e).1 ≤ c := by
  have h := (canonicalLoop_spec c e).2.1
  exact (Nat.le_mul_of_pos_right _ (by positivity)).trans h.ge

/-- An error value is its own canonical form (R100). -/
theorem Dec.canonical_of_isError {v : Dec} (h : v.isError = true) : v.canonical = v := by
  simp [Dec.canonical, h]

@[simp] theorem Dec.canonical_state (v : Dec) : v.canonical.state = v.state := by
  unfold Dec.canonical; split <;> rfl

@[simp] theorem Dec.canonical_isError (v : Dec) : v.canonical.isError = v.isError := by
  simp [Dec.isError]

/-- The coefficient of the canonical form of a finite value. -/
theorem Dec.canonical_coef {v : Dec} (h : v.isError = false) :
    v.canonical.coef.toNat = (canonicalLoop v.coef.toNat v.exp.toNat).1 := by
  simp only [Dec.canonical, h, Bool.false_eq_true, if_false]
  exact Dec.ofNat_coef_toNat (lt_of_le_of_lt (canonicalLoop_le _ _) v.coef.isLt) _ _

/-- The exponent of the canonical form of a finite value. -/
theorem Dec.canonical_exp {v : Dec} (h : v.isError = false) :
    v.canonical.exp.toNat = (canonicalLoop v.coef.toNat v.exp.toNat).2 := by
  simp only [Dec.canonical, h, Bool.false_eq_true, if_false]
  exact Dec.ofNat_exp_toNat (lt_of_le_of_lt (canonicalLoop_spec _ _).1 v.exp.isLt) _ _

/-- Everything the canonical form of a finite value is: the exponent is no larger, the coefficient is divided by
the tens that left, and nothing more can be removed (R100). -/
theorem Dec.canonical_spec {v : Dec} (h : v.isError = false) :
    v.canonical.exp.toNat ≤ v.exp.toNat ∧
      v.coef.toNat = v.canonical.coef.toNat * 10 ^ (v.exp.toNat - v.canonical.exp.toNat) ∧
      (v.canonical.exp.toNat = 0 ∨ v.canonical.coef.toNat % 10 ≠ 0) := by
  rw [Dec.canonical_coef h, Dec.canonical_exp h]
  exact canonicalLoop_spec _ _

/-- The canonical form of a well-formed record is well-formed (R100). -/
theorem Dec.canonical_wf {v : Dec} (h : v.wf = true) : v.canonical.wf = true := by
  by_cases he : v.isError = true
  · rwa [Dec.canonical_of_isError he]
  · rw [Bool.not_eq_true] at he
    rw [Dec.wf_iff]
    exact .inr ((Dec.canonical_spec he).1.trans (Dec.exp_le_of_wf h he))

/-! ### The error short-circuit and the two tiers -/

/-- What phase 1 delivers (R111). -/
theorem shortCircuit_cases {α : Type} (wrap : Dec → α) (a b : Dec) (rest : α) :
    (a.isError = true ∧ shortCircuit wrap a b rest = wrap a) ∨
      (a.isError = false ∧ b.isError = true ∧ shortCircuit wrap a b rest = wrap b) ∨
      (a.isError = false ∧ b.isError = false ∧ shortCircuit wrap a b rest = rest) := by
  unfold shortCircuit
  cases ha : a.isError <;> cases hb : b.isError <;> simp

theorem shortCircuit_left {α : Type} (wrap : Dec → α) {a : Dec} (b : Dec) (rest : α) (h : a.isError = true) :
    shortCircuit wrap a b rest = wrap a := by
  simp [shortCircuit, h]

theorem shortCircuit_right {α : Type} (wrap : Dec → α) {a b : Dec} (rest : α) (ha : a.isError = false)
    (hb : b.isError = true) : shortCircuit wrap a b rest = wrap b := by
  simp [shortCircuit, ha, hb]

theorem shortCircuit_finite {α : Type} (wrap : Dec → α) {a b : Dec} (rest : α) (ha : a.isError = false)
    (hb : b.isError = false) : shortCircuit wrap a b rest = rest := by
  simp [shortCircuit, ha, hb]

/-- Phases 2 and 3: the fast attempt, else the canonical retry, else overflow (R112). -/
theorem twoTier_cases {α : Type} (att : Dec → Dec → Option α) (ovf : α) (a b : Dec) :
    (∃ r, att a b = some r ∧ twoTier att ovf a b = r) ∨
      (∃ r, att a b = none ∧ att a.canonical b.canonical = some r ∧ twoTier att ovf a b = r) ∨
      (att a b = none ∧ att a.canonical b.canonical = none ∧ twoTier att ovf a b = ovf) := by
  unfold twoTier
  cases h : att a b with
  | some r => simp
  | none => cases h' : att a.canonical b.canonical <;> simp

/-- A property of every successful attempt on operands of the same kind, and of the overflow result, is a
property of the two-tier result. -/
theorem twoTier_induct {α : Type} {att : Dec → Dec → Option α} {ovf : α} {a b : Dec} (P : α → Prop)
    (fast : ∀ r, att a b = some r → P r) (retry : ∀ r, att a.canonical b.canonical = some r → P r)
    (ovfCase : P ovf) : P (twoTier att ovf a b) := by
  rcases twoTier_cases att ovf a b with ⟨r, h, e⟩ | ⟨r, -, h, e⟩ | ⟨-, -, e⟩ <;> rw [e]
  · exact fast r h
  · exact retry r h
  · exact ovfCase

end Sys2Proof

namespace Sys2Proof.Machine

/-! ### The command frame -/

/-- Everything the command frame can do (R110): nothing while a fault is latched, else the command's effect,
else the stop on operands no run reaches. -/
theorem commandFrame_cases (s after : State) (ok : Bool) :
    (s.statusFault ≠ 0 ∧ commandFrame s ok after = .next s) ∨
      (s.statusFault = 0 ∧ ok = true ∧ commandFrame s ok after = .next after) ∨
      (s.statusFault = 0 ∧ ok = false ∧ commandFrame s ok after = .fault .illFormedOperand) := by
  unfold commandFrame State.faulted
  by_cases h : s.statusFault = 0
  · cases ok <;> simp [h]
  · exact .inl ⟨h, if_pos (by simpa using h)⟩

/-- If the frame answers a next state, it is the unchanged state of a latched fault or the command's effect. -/
theorem commandFrame_next {s after t : State} {ok : Bool} (h : commandFrame s ok after = .next t) :
    (s.statusFault ≠ 0 ∧ t = s) ∨ (s.statusFault = 0 ∧ ok = true ∧ t = after) := by
  rcases commandFrame_cases s after ok with ⟨h1, e⟩ | ⟨h1, h2, e⟩ | ⟨-, -, e⟩ <;> rw [e] at h
  · exact .inl ⟨h1, (by injection h with h; exact h.symm)⟩
  · exact .inr ⟨h1, h2, (by injection h with h; exact h.symm)⟩
  · cases h

/-- With no fault latched and its operands well-formed, a command runs (R110). -/
theorem commandFrame_ready {s after : State} (h : s.statusFault = 0) :
    commandFrame s true after = .next after := by
  rcases commandFrame_cases s after true with ⟨h1, -⟩ | ⟨-, -, e⟩ | ⟨-, h2, -⟩
  · exact absurd h h1
  · exact e
  · cases h2

/-- A latched fault stops every command (R229). -/
theorem commandFrame_latched {s after : State} {ok : Bool} (h : s.statusFault ≠ 0) :
    commandFrame s ok after = .next s :=
  if_pos (by simpa [State.faulted] using h)

end Sys2Proof.Machine
end

