-- ==== Sys2Proof/Laws/Arith.lean ====
section
/-! SUPPORT. One lemma per operation that says what it can answer: the attempts inverted, the integer root, the
levels of PowInt, and that every operation on well-formed operands gives a well-formed record (R26). -/

namespace Sys2Proof

theorem coefLimit_eq : coefLimit = 2 ^ 128 := rfl

theorem divisorLimit_eq : divisorLimit = 2 ^ 64 := rfl

/-! ### Attempts -/

/-- Everything a successful addition attempt is (R116). -/
theorem addAttempt_some {a b r : Dec} (h : addAttempt a b = some r) :
    ∃ ca cb e, e = max a.exp.toNat b.exp.toNat ∧ ca = a.coef.toNat * 10 ^ (e - a.exp.toNat) ∧
      cb = b.coef.toNat * 10 ^ (e - b.exp.toNat) ∧ ca < 2 ^ 128 ∧ cb < 2 ^ 128 ∧
      ((a.state = b.state ∧ ca + cb < 2 ^ 128 ∧ r = Dec.ofNat (ca + cb) e a.state) ∨
        (a.state ≠ b.state ∧ cb < ca ∧ r = Dec.ofNat (ca - cb) e a.state) ∨
        (a.state ≠ b.state ∧ ca < cb ∧ r = Dec.ofNat (cb - ca) e b.state) ∨
        (a.state ≠ b.state ∧ ca = cb ∧ r = Dec.ofNat 0 e Dec.positive)) := by
  unfold addAttempt at h
  simp only [pow10, coefLimit_eq] at h
  refine ⟨_, _, _, rfl, rfl, rfl, ?_⟩
  split at h
  · cases h
  case isFalse hfit =>
    push Not at hfit
    refine ⟨hfit.1, hfit.2, ?_⟩
    split at h
    case isTrue hs =>
      split at h
      · cases h
      case isFalse hsum => exact .inl ⟨hs, by omega, (Option.some.inj h).symm⟩
    case isFalse hs =>
      split at h
      case isTrue hgt => exact .inr (.inl ⟨hs, hgt, (Option.some.inj h).symm⟩)
      case isFalse hgt =>
        split at h
        case isTrue hlt => exact .inr (.inr (.inl ⟨hs, hlt, (Option.some.inj h).symm⟩))
        case isFalse hlt => exact .inr (.inr (.inr ⟨hs, by omega, (Option.some.inj h).symm⟩))

/-- An addition attempt fails exactly where an aligned coefficient or a same-sign sum does not fit (R116). -/
theorem addAttempt_none {a b : Dec} :
    addAttempt a b = none ↔
      2 ^ 128 ≤ a.coef.toNat * 10 ^ (max a.exp.toNat b.exp.toNat - a.exp.toNat) ∨
        2 ^ 128 ≤ b.coef.toNat * 10 ^ (max a.exp.toNat b.exp.toNat - b.exp.toNat) ∨
        (a.state = b.state ∧
          2 ^ 128 ≤ a.coef.toNat * 10 ^ (max a.exp.toNat b.exp.toNat - a.exp.toNat) +
            b.coef.toNat * 10 ^ (max a.exp.toNat b.exp.toNat - b.exp.toNat)) := by
  unfold addAttempt
  simp only [pow10, coefLimit_eq]
  generalize a.coef.toNat * 10 ^ (max a.exp.toNat b.exp.toNat - a.exp.toNat) = ca
  generalize b.coef.toNat * 10 ^ (max a.exp.toNat b.exp.toNat - b.exp.toNat) = cb
  split
  case isTrue h =>
    simp only [true_iff]
    rcases h with h | h
    · exact .inl h
    · exact .inr (.inl h)
  case isFalse h =>
    push Not at h
    split
    case isTrue hs =>
      split
      case isTrue hsum => simp only [true_iff]; exact .inr (.inr ⟨hs, hsum⟩)
      case isFalse hsum =>
        simp only [reduceCtorEq, false_iff]
        rintro (h' | h' | ⟨-, h'⟩) <;> omega
    case isFalse hs =>
      have : ¬(2 ^ 128 ≤ ca ∨ 2 ^ 128 ≤ cb ∨ a.state = b.state ∧ 2 ^ 128 ≤ ca + cb) := by
        rintro (h' | h' | ⟨h', -⟩)
        · omega
        · omega
        · exact hs h'
      simp only [this, iff_false]
      split
      · simp
      · split <;> simp

/-- Everything a successful multiplication attempt is (R130). -/
theorem mulAttempt_some {a b r : Dec} (h : mulAttempt a b = some r) :
    a.exp.toNat + b.exp.toNat ≤ 19 ∧ a.coef.toNat * b.coef.toNat < 2 ^ 128 ∧
      r = Dec.ofNat (a.coef.toNat * b.coef.toNat) (a.exp.toNat + b.exp.toNat) (a.signXor b) := by
  unfold mulAttempt at h
  simp only [Config.expMax, coefLimit_eq] at h
  split at h
  · cases h
  · split at h
    · cases h
    · exact ⟨by omega, by omega, (Option.some.inj h).symm⟩

/-- A multiplication attempt fails exactly on the exponent range or the product (R130). -/
theorem mulAttempt_none {a b : Dec} :
    mulAttempt a b = none ↔ 19 < a.exp.toNat + b.exp.toNat ∨ 2 ^ 128 ≤ a.coef.toNat * b.coef.toNat := by
  unfold mulAttempt
  simp only [Config.expMax, coefLimit_eq]
  split
  case isTrue h => exact ⟨fun _ => .inl h, fun _ => rfl⟩
  case isFalse h =>
    split
    case isTrue h' => exact ⟨fun _ => .inr h', fun _ => rfl⟩
    case isFalse h' => simp only [reduceCtorEq, false_iff]; omega

/-- Everything a successful Div attempt is (R143). -/
theorem divAttempt_some {a b r : Dec} (h : divAttempt a b = some r) :
    a.coef.toNat * 10 ^ (19 + b.exp.toNat - a.exp.toNat) < 2 ^ 128 ∧ b.coef.toNat < 2 ^ 64 ∧
      r = Dec.ofNat (a.coef.toNat * 10 ^ (19 + b.exp.toNat - a.exp.toNat) / b.coef.toNat) 19 (a.signXor b) := by
  unfold divAttempt at h
  simp only [Config.expMax, coefLimit_eq, divisorLimit_eq, pow10, divRem] at h
  split at h
  · cases h
  · split at h
    · cases h
    · exact ⟨by omega, by omega, (Option.some.inj h).symm⟩

/-- A Div attempt fails exactly on the scaled dividend or the divisor's width (R143). -/
theorem divAttempt_none {a b : Dec} :
    divAttempt a b = none ↔
      2 ^ 128 ≤ a.coef.toNat * 10 ^ (19 + b.exp.toNat - a.exp.toNat) ∨ 2 ^ 64 ≤ b.coef.toNat := by
  unfold divAttempt
  simp only [Config.expMax, coefLimit_eq, divisorLimit_eq, pow10]
  split
  case isTrue h => exact ⟨fun _ => .inl h, fun _ => rfl⟩
  case isFalse h =>
    split
    case isTrue h' => exact ⟨fun _ => .inr h', fun _ => rfl⟩
    case isFalse h' => simp only [reduceCtorEq, false_iff]; omega

/-- Everything a successful QuoRem attempt is (R147). -/
theorem quoRemAttempt_some {a b : Dec} {qr : Dec × Dec} (h : quoRemAttempt a b = some qr) :
    a.coef.toNat * 10 ^ (19 - a.exp.toNat) < 2 ^ 128 ∧ b.coef.toNat < 2 ^ 64 ∧
      qr = (Dec.ofNat (a.coef.toNat * 10 ^ (19 - a.exp.toNat) / b.coef.toNat) (19 - b.exp.toNat) (a.signXor b),
        Dec.ofNat (a.coef.toNat * 10 ^ (19 - a.exp.toNat) % b.coef.toNat) 19 a.state) := by
  unfold quoRemAttempt at h
  simp only [Config.expMax, coefLimit_eq, divisorLimit_eq, pow10, divRem] at h
  split at h
  · cases h
  · split at h
    · cases h
    · exact ⟨by omega, by omega, (Option.some.inj h).symm⟩

/-- A QuoRem attempt fails exactly on the rescaled dividend or the divisor's width (R147). -/
theorem quoRemAttempt_none {a b : Dec} :
    quoRemAttempt a b = none ↔
      2 ^ 128 ≤ a.coef.toNat * 10 ^ (19 - a.exp.toNat) ∨ 2 ^ 64 ≤ b.coef.toNat := by
  unfold quoRemAttempt
  simp only [Config.expMax, coefLimit_eq, divisorLimit_eq, pow10]
  split
  case isTrue h => exact ⟨fun _ => .inl h, fun _ => rfl⟩
  case isFalse h =>
    split
    case isTrue h' => exact ⟨fun _ => .inr h', fun _ => rfl⟩
    case isFalse h' => simp only [reduceCtorEq, false_iff]; omega

/-! ### The integer root -/

/-- The bits still to come raise the root so far by less than `2^bits`, and keep it the largest root. -/
theorem isqrtBits_spec (m bits s : Nat) (hlo : s * s ≤ m) (hhi : m < (s + 2 ^ bits) * (s + 2 ^ bits)) :
    isqrtBits m bits s * isqrtBits m bits s ≤ m ∧
      m < (isqrtBits m bits s + 1) * (isqrtBits m bits s + 1) := by
  induction bits generalizing s with
  | zero => exact ⟨hlo, by simpa [isqrtBits] using hhi⟩
  | succ b ih =>
    have hp : 2 ^ (b + 1) = 2 ^ b + 2 ^ b := by ring
    unfold isqrtBits
    split
    case isTrue h => exact ih _ h (by rw [hp] at hhi; rwa [add_assoc])
    case isFalse h => exact ih _ hlo (by omega)

/-- `isqrt` is the floor root of every radicand below `2^256` (R7, R164). -/
theorem isqrt_spec {m : Nat} (h : m < 2 ^ 256) :
    isqrt m * isqrt m ≤ m ∧ m < (isqrt m + 1) * (isqrt m + 1) :=
  isqrtBits_spec m 128 0 (Nat.zero_le m) (by rwa [zero_add, ← pow_add])

/-- The root of such a radicand fits a coefficient (R164). -/
theorem isqrt_lt {m : Nat} (h : m < 2 ^ 256) : isqrt m < 2 ^ 128 := by
  by_contra hc
  have h1 := (isqrt_spec h).1
  have h2 : 2 ^ 128 * 2 ^ 128 ≤ isqrt m * isqrt m := Nat.mul_le_mul (by omega) (by omega)
  omega

/-- The scaled radicand of a coefficient is below `2^256` (R164). -/
theorem radicand_lt (c : Coef) (k : Nat) (h : k ≤ 38) : c.toNat * 10 ^ k < 2 ^ 256 := by
  have h1 : (10 : Nat) ^ k ≤ 10 ^ 38 := Nat.pow_le_pow_right (by decide) h
  have h2 := c.isLt
  calc c.toNat * 10 ^ k ≤ 2 ^ 128 * 10 ^ 38 := Nat.mul_le_mul h2.le h1
    _ < 2 ^ 256 := by decide

/-! ### PowInt -/

/-- Enough fuel is enough: any two amounts that an exponent does not use up give the same power. -/
theorem powNat_fuel (f g : Nat) (x : Dec) (n : Nat) (hf : n < 2 ^ f) (hg : n < 2 ^ g) :
    powNat (f + 1) x n = powNat (g + 1) x n := by
  induction f generalizing g x n with
  | zero =>
    have : n = 0 := by omega
    subst this
    simp [powNat]
  | succ f ih =>
    cases g with
    | zero =>
      have : n = 0 := by omega
      subst this
      simp [powNat]
    | succ g =>
      have hd : n / 2 < 2 ^ f ∧ n / 2 < 2 ^ g := by
        rw [pow_succ] at hf hg
        omega
      unfold powNat
      rw [ih g (mulOp x x) (n / 2) hd.1 hd.2]

/-- One level of PowInt, for every exponent a 64-bit register can hold (R170). -/
theorem powNat_level (x : Dec) (n : Nat) (hx : x.isError = false) (h2 : 2 ≤ n) (hn : n < 2 ^ 63) :
    powNat Config.nBits x n =
      if n % 2 = 0 then powNat Config.nBits (mulOp x x) (n / 2)
      else mulOp (powNat Config.nBits (mulOp x x) (n / 2)) x := by
  have h : powNat 63 (mulOp x x) (n / 2) = powNat Config.nBits (mulOp x x) (n / 2) :=
    powNat_fuel 62 63 _ _ (by omega) (by omega)
  have step : powNat (63 + 1) x n =
      if x.isError then x
      else if n = 0 then Dec.one
      else if n = 1 then x
      else if n % 2 = 0 then powNat 63 (mulOp x x) (n / 2) else mulOp (powNat 63 (mulOp x x) (n / 2)) x := rfl
  rw [h, hx, if_neg Bool.false_ne_true, if_neg (by omega), if_neg (by omega)] at step
  exact step

/-! ### Well-formed results -/

theorem addOp_wf {a b : Dec} (ha : a.wf = true) (hb : b.wf = true) : (addOp a b).wf = true := by
  have key : ∀ a b r : Dec, a.wf = true → b.wf = true → a.isError = false → b.isError = false →
      addAttempt a b = some r → r.wf = true := by
    intro a b r ha hb hea heb h
    obtain ⟨ca, cb, e, he, -, -, -, -, hr⟩ := addAttempt_some h
    have : e ≤ 19 := by
      have h1 := Dec.exp_le_of_wf ha hea
      have h2 := Dec.exp_le_of_wf hb heb
      omega
    rcases hr with ⟨-, -, rfl⟩ | ⟨-, -, rfl⟩ | ⟨-, -, rfl⟩ | ⟨-, -, rfl⟩ <;> exact Dec.ofNat_wf this _ _
  unfold addOp
  rcases shortCircuit_cases id a b (twoTier addAttempt (Dec.err Dec.overflow) a b) with
    ⟨-, e⟩ | ⟨-, -, e⟩ | ⟨hea, heb, e⟩ <;> rw [e]
  · exact ha
  · exact hb
  · exact twoTier_induct (fun r : Dec => r.wf = true) (fun r h => key a b r ha hb hea heb h)
      (fun r h => key _ _ r (Dec.canonical_wf ha) (Dec.canonical_wf hb) (by simpa using hea) (by simpa using heb) h)
      (Dec.err_wf _)

/-- Sub of finite operands is Add of the toggled right one (R119). -/
theorem subOp_finite {a b : Dec} (ha : a.isError = false) (hb : b.isError = false) :
    subOp a b = addOp a b.toggle := by
  rw [subOp, addOp, shortCircuit_finite _ _ ha hb, shortCircuit_finite _ _ ha (Dec.toggle_isError hb)]

theorem subOp_wf {a b : Dec} (ha : a.wf = true) (hb : b.wf = true) : (subOp a b).wf = true := by
  cases hea : a.isError with
  | true => rw [subOp, shortCircuit_left _ _ _ hea]; exact ha
  | false =>
    cases heb : b.isError with
    | true => rw [subOp, shortCircuit_right _ _ hea heb]; exact hb
    | false => rw [subOp_finite hea heb]; exact addOp_wf ha (Dec.toggle_wf hb heb)

theorem mulOp_wf {a b : Dec} (ha : a.wf = true) (hb : b.wf = true) : (mulOp a b).wf = true := by
  have key : ∀ a b r : Dec, mulAttempt a b = some r → r.wf = true := by
    intro a b r h
    obtain ⟨h1, -, rfl⟩ := mulAttempt_some h
    exact Dec.ofNat_wf h1 _ _
  unfold mulOp
  rcases shortCircuit_cases id a b (if a.isZero || b.isZero then Dec.zero
    else twoTier mulAttempt (Dec.err Dec.overflow) a b) with ⟨-, e⟩ | ⟨-, -, e⟩ | ⟨-, -, e⟩ <;> rw [e]
  · exact ha
  · exact hb
  · split
    · simp
    · exact twoTier_induct (fun r : Dec => r.wf = true) (key a b) (key _ _) (Dec.err_wf _)

/-- What the division checks can deliver (R140). -/
theorem divisionChecks_induct {α : Type} {wrap : Dec → α} {a b : Dec} {rest : α} (P : α → Prop)
    (left : a.isError = true → P (wrap a)) (right : b.isError = true → P (wrap b))
    (zeroDivisor : P (wrap (Dec.err Dec.divisionByZero))) (zeroDividend : P (wrap Dec.zero))
    (go : a.isError = false → b.isError = false → b.isZero = false → a.isZero = false → P rest) :
    P (divisionChecks wrap a b rest) := by
  unfold divisionChecks shortCircuit
  split
  case isTrue h => exact left h
  case isFalse ha =>
    split
    case isTrue h => exact right h
    case isFalse hb =>
      split
      · exact zeroDivisor
      case isFalse hz =>
        split
        · exact zeroDividend
        case isFalse hz' =>
          simp only [Bool.not_eq_true] at ha hb hz hz'
          exact go ha hb hz hz'

theorem divOp_wf {a b : Dec} (ha : a.wf = true) (hb : b.wf = true) : (divOp a b).wf = true := by
  have key : ∀ a b r : Dec, divAttempt a b = some r → r.wf = true := by
    intro a b r h
    obtain ⟨-, -, rfl⟩ := divAttempt_some h
    exact Dec.ofNat_wf (by decide) _ _
  exact divisionChecks_induct (fun r : Dec => r.wf = true) (fun _ => ha) (fun _ => hb) (Dec.err_wf _) Dec.zero_wf
    (fun _ _ _ _ => twoTier_induct (fun r : Dec => r.wf = true) (key a b) (key _ _) (Dec.err_wf _))

theorem quoRemOp_wf {a b : Dec} (ha : a.wf = true) (hb : b.wf = true) :
    (quoRemOp a b).1.wf = true ∧ (quoRemOp a b).2.wf = true := by
  have key : ∀ (a b : Dec) (r : Dec × Dec), quoRemAttempt a b = some r → r.1.wf = true ∧ r.2.wf = true := by
    intro a b r h
    obtain ⟨-, -, rfl⟩ := quoRemAttempt_some h
    exact ⟨Dec.ofNat_wf (by omega) _ _, Dec.ofNat_wf (by decide) _ _⟩
  exact divisionChecks_induct (fun r : Dec × Dec => r.1.wf = true ∧ r.2.wf = true) (fun _ => ⟨ha, ha⟩) (fun _ => ⟨hb, hb⟩)
    ⟨Dec.err_wf _, Dec.err_wf _⟩ ⟨Dec.zero_wf, Dec.zero_wf⟩
    (fun _ _ _ _ => twoTier_induct (fun r : Dec × Dec => r.1.wf = true ∧ r.2.wf = true) (key a b) (key _ _)
      ⟨Dec.err_wf _, Dec.err_wf _⟩)

theorem modOp_wf {a b : Dec} (ha : a.wf = true) (hb : b.wf = true) : (modOp a b).wf = true :=
  (quoRemOp_wf ha hb).2

theorem absOp_wf {v : Dec} (h : v.wf = true) : (absOp v).wf = true := by
  unfold absOp
  split
  · exact h
  case isFalse he =>
    rw [Bool.not_eq_true] at he
    rw [Dec.wf_iff]
    exact .inr (show v.exp.toNat ≤ 19 from Dec.exp_le_of_wf h he)

theorem negOp_wf {v : Dec} (h : v.wf = true) : (negOp v).wf = true := by
  unfold negOp
  split
  · exact h
  case isFalse he => exact Dec.toggle_wf h (by simpa using he)

/-- Everything Sqrt can answer: the operand, a constant, a marker, or the root at 19 places (R165). -/
theorem sqrtOp_cases (a : Dec) :
    (a.isError = true ∧ sqrtOp a = a) ∨ (a.isError = false ∧ a.isZero = true ∧ sqrtOp a = Dec.zero) ∨
      (a.isError = false ∧ a.isZero = false ∧ a.isNeg = true ∧ sqrtOp a = Dec.err Dec.sqrtNegative) ∨
      (a.isError = false ∧ a.isZero = false ∧ a.isNeg = false ∧ a.coef.toNat = 10 ^ a.exp.toNat ∧
        sqrtOp a = Dec.one) ∨
      (a.isError = false ∧ a.isZero = false ∧ a.isNeg = false ∧ a.coef.toNat ≠ 10 ^ a.exp.toNat ∧
        sqrtOp a = Dec.ofNat (isqrt (a.coef.toNat * 10 ^ (38 - a.exp.toNat))) 19 Dec.positive) := by
  unfold sqrtOp pow10
  cases h1 : a.isError
  · cases h2 : a.isZero
    · cases h3 : a.isNeg
      · by_cases h4 : a.coef.toNat = 10 ^ a.exp.toNat
        · exact .inr (.inr (.inr (.inl ⟨rfl, rfl, rfl, h4, by simp [h4]⟩)))
        · exact .inr (.inr (.inr (.inr ⟨rfl, rfl, rfl, h4, by
            simp [h4, sqrtAttempt, pow10, Config.expMax]⟩)))
      · exact .inr (.inr (.inl ⟨rfl, rfl, rfl, by simp⟩))
    · exact .inr (.inl ⟨rfl, rfl, by simp⟩)
  · exact .inl ⟨rfl, by simp⟩

theorem sqrtOp_wf {a : Dec} (h : a.wf = true) : (sqrtOp a).wf = true := by
  rcases sqrtOp_cases a with ⟨-, e⟩ | ⟨-, -, e⟩ | ⟨-, -, -, e⟩ | ⟨-, -, -, -, e⟩ | ⟨-, -, -, -, e⟩ <;> rw [e]
  · exact h
  · simp
  · simp
  · simp
  · exact Dec.ofNat_wf (by decide) _ _

theorem powNat_wf (f : Nat) {x : Dec} (n : Nat) (h : x.wf = true) : (powNat f x n).wf = true := by
  induction f generalizing x n with
  | zero => exact h
  | succ f ih =>
    have hh := ih (x := mulOp x x) (n / 2) (mulOp_wf h h)
    unfold powNat
    split
    · exact h
    · split
      · simp
      · split
        · exact h
        · dsimp only
          split
          · exact hh
          · exact mulOp_wf hh h

theorem powOp_wf {x : Dec} (n : Int) (h : x.wf = true) : (powOp x n).wf = true := by
  unfold powOp
  split
  · exact h
  · split
    · split
      · simp
      · exact divOp_wf (by simp) (powNat_wf _ _ h)
    · exact powNat_wf _ _ h

/-- Everything a rounding can answer: the operand, or the quotient, incremented where the mode says so (R180).
The increment never overflows (R182). -/
theorem roundOp_cases (mode : RoundMode) (v : Dec) (p : Nat) :
    (v.isError = true ∧ roundOp mode v p = v) ∨
      (v.isError = false ∧ v.exp.toNat ≤ p ∧ roundOp mode v p = v) ∨
      (v.isError = false ∧ p < v.exp.toNat ∧
        roundOp mode v p = Dec.ofNat
          (v.coef.toNat / 10 ^ (v.exp.toNat - p) +
            if roundInc mode (v.coef.toNat / 10 ^ (v.exp.toNat - p)) (v.coef.toNat % 10 ^ (v.exp.toNat - p))
              (10 ^ (v.exp.toNat - p)) v.isNeg then 1 else 0) p v.state) := by
  unfold roundOp
  simp only [pow10, divRem, coefLimit_eq]
  cases he : v.isError
  · by_cases hp : v.exp.toNat ≤ p
    · exact .inr (.inl ⟨rfl, hp, by simp [hp]⟩)
    · refine .inr (.inr ⟨rfl, by omega, ?_⟩)
      have hq : v.coef.toNat / 10 ^ (v.exp.toNat - p) + 1 < 2 ^ 128 := by
        have h1 : (10 : Nat) ^ 1 ≤ 10 ^ (v.exp.toNat - p) := Nat.pow_le_pow_right (by decide) (by omega)
        have h2 : v.coef.toNat / 10 ^ (v.exp.toNat - p) ≤ v.coef.toNat / 10 ^ 1 := Nat.div_le_div_left h1 (by decide)
        have h3 := v.coef.isLt
        omega
      simp only [Bool.false_eq_true, if_false, ge_iff_le, hp]
      split
      · rw [if_neg (by omega)]
      · rfl
  · exact .inl ⟨rfl, by simp⟩

theorem roundOp_wf (mode : RoundMode) {v : Dec} (p : Nat) (h : v.wf = true) : (roundOp mode v p).wf = true := by
  rcases roundOp_cases mode v p with ⟨-, e⟩ | ⟨-, -, e⟩ | ⟨he, hp, e⟩ <;> rw [e]
  · exact h
  · exact h
  · exact Dec.ofNat_wf (by have := Dec.exp_le_of_wf h he; omega) _ _

/-- The converted integer is finite, at exponent 0, with the integer's magnitude and sign (R200). -/
theorem fromInt64_spec (i : Int) (h : i.natAbs ≤ 2 ^ 63) :
    (fromInt64 i).coef.toNat = i.natAbs ∧ (fromInt64 i).exp = 0 ∧
      (fromInt64 i).state = if i < 0 then Dec.negative else Dec.positive := by
  unfold fromInt64
  split <;> exact ⟨Dec.ofNat_coef_toNat (by omega) _ _, rfl, rfl⟩

theorem fromInt64_isError (i : Int) : (fromInt64 i).isError = false := by
  unfold fromInt64
  split <;> rfl

theorem fromInt64_wf (i : Int) : (fromInt64 i).wf = true := by
  unfold fromInt64
  split <;> exact Dec.ofNat_wf (by decide) _ _

/-- `sint` is the two's complement value of the register, so at most `2^63` in magnitude (R77). -/
theorem sint_natAbs_le (n : IntWord) : (sint n).natAbs ≤ 2 ^ 63 := by
  have h1 := (n.extractLsb' 0 63).isLt
  have h2 := (n.extractLsb' 63 1).isLt
  unfold sint
  omega

end Sys2Proof
end

