-- ==== Sys2Proof/Laws/Image.lean ====
section
/-! SUPPORT. A value register's image as a number (R76). -/

namespace Sys2Proof

/-- The image of a record, its three fields in their places (R76). -/
theorem Dec.image_toNat (v : Dec) :
    v.image.toNat = v.state.toNat * 2 ^ 136 + v.exp.toNat * 2 ^ 128 + v.coef.toNat := by
  have h1 := v.coef.isLt
  have h2 := v.exp.isLt
  have h : v.image.toNat = v.state.toNat <<< 136 ||| (v.exp.toNat <<< 128 ||| v.coef.toNat) := by
    rw [Dec.image]
    refine (BitVec.toNat_append v.state (v.exp ++ v.coef)).trans ?_
    rw [BitVec.toNat_append]
  rw [h, ← Nat.shiftLeft_add_eq_or_of_lt h1, ← Nat.shiftLeft_add_eq_or_of_lt, Nat.shiftLeft_eq, Nat.shiftLeft_eq]
  · omega
  · rw [Nat.shiftLeft_eq]
    omega

/-- The record an image spells, field by field (R76). -/
theorem Dec.ofImage_toNat (b : Image) :
    (Dec.ofImage b).coef.toNat = b.toNat % 2 ^ 128 ∧ (Dec.ofImage b).exp.toNat = b.toNat / 2 ^ 128 % 2 ^ 8 ∧
      (Dec.ofImage b).state.toNat = b.toNat / 2 ^ 136 := by
  have h := b.isLt
  simp only [Dec.ofImage, BitVec.extractLsb'_toNat, Nat.shiftRight_eq_div_pow]
  exact ⟨by simp, trivial, by omega⟩

end Sys2Proof
end

