-- ==== Sys2Proof/Laws/PerInstr.lean ====
section
/-! SUPPORT. The per-instruction family TableRow: the word a command assembles to (R80) spells that command by the
match and mask columns of R73, and carries its target precision in imm8 (R72). -/

namespace Sys2Proof.Laws.TableRow

/-- The encoding of one command against its row of the opcode table. -/
def Statement (i : Instr) : Prop :=
  encode i &&& maskBits i = matchBits i ∧ (i.wf = true → imm8Of (encode i) = i.precision.getD 0)

/-- The word of a rounding command: its low byte is the opcode, its high byte the precision. -/
theorem roundingWord (op p : Nat) (hop : op < 256) :
    BitVec.ofNat 16 (op + 256 * p) &&& 0x00FF#16 = BitVec.ofNat 16 op ∧
      (p < 256 → imm8Of (BitVec.ofNat 16 (op + 256 * p)) = p) := by
  constructor
  · apply BitVec.eq_of_toNat_eq
    have h := Nat.and_two_pow_sub_one_eq_mod ((op + 256 * p) % 65536) 8
    simp only [BitVec.toNat_and, BitVec.toNat_ofNat]
    norm_num at h ⊢
    rw [h]
    omega
  · intro hp
    simp only [imm8Of, BitVec.extractLsb'_toNat, BitVec.toNat_ofNat, Nat.shiftRight_eq_div_pow]
    omega

theorem canon : Statement .canon := by unfold Statement; decide
theorem abs : Statement .abs := by unfold Statement; decide
theorem neg : Statement .neg := by unfold Statement; decide
theorem sqrt : Statement .sqrt := by unfold Statement; decide
theorem powi : Statement .powi := by unfold Statement; decide
theorem fromi : Statement .fromi := by unfold Statement; decide
theorem add : Statement .add := by unfold Statement; decide
theorem sub : Statement .sub := by unfold Statement; decide
theorem mul : Statement .mul := by unfold Statement; decide
theorem div : Statement .div := by unfold Statement; decide
theorem mod : Statement .mod := by unfold Statement; decide
theorem quorem : Statement .quorem := by unfold Statement; decide
theorem addi : Statement .addi := by unfold Statement; decide
theorem subi : Statement .subi := by unfold Statement; decide
theorem muli : Statement .muli := by unfold Statement; decide
theorem divi : Statement .divi := by unfold Statement; decide
theorem modi : Statement .modi := by unfold Statement; decide
theorem quoremi : Statement .quoremi := by unfold Statement; decide

theorem rdown (p : Nat) : Statement (.rdown p) :=
  ⟨(roundingWord 0x20 p (by decide)).1, fun h =>
    (roundingWord 0x20 p (by decide)).2 (of_decide_eq_true h)⟩
theorem rup (p : Nat) : Statement (.rup p) :=
  ⟨(roundingWord 0x21 p (by decide)).1, fun h =>
    (roundingWord 0x21 p (by decide)).2 (of_decide_eq_true h)⟩
theorem rtz (p : Nat) : Statement (.rtz p) :=
  ⟨(roundingWord 0x22 p (by decide)).1, fun h =>
    (roundingWord 0x22 p (by decide)).2 (of_decide_eq_true h)⟩
theorem rafz (p : Nat) : Statement (.rafz p) :=
  ⟨(roundingWord 0x23 p (by decide)).1, fun h =>
    (roundingWord 0x23 p (by decide)).2 (of_decide_eq_true h)⟩
theorem rhtz (p : Nat) : Statement (.rhtz p) :=
  ⟨(roundingWord 0x24 p (by decide)).1, fun h =>
    (roundingWord 0x24 p (by decide)).2 (of_decide_eq_true h)⟩
theorem rhafz (p : Nat) : Statement (.rhafz p) :=
  ⟨(roundingWord 0x25 p (by decide)).1, fun h =>
    (roundingWord 0x25 p (by decide)).2 (of_decide_eq_true h)⟩
theorem rbank (p : Nat) : Statement (.rbank p) :=
  ⟨(roundingWord 0x26 p (by decide)).1, fun h =>
    (roundingWord 0x26 p (by decide)).2 (of_decide_eq_true h)⟩
theorem trunc (p : Nat) : Statement (.trunc p) :=
  ⟨(roundingWord 0x27 p (by decide)).1, fun h =>
    (roundingWord 0x27 p (by decide)).2 (of_decide_eq_true h)⟩

end Sys2Proof.Laws.TableRow
end

