-- ==== Sys2Proof/Laws/State.lean ====
section
/-! SUPPORT. One lemma per field per update of the state, each true by rfl, and the same for the two operations
on the fault latch. -/

namespace Sys2Proof.Machine

@[simp] theorem State.setVA_va (s : State) (v : Dec) : (s.setVA v).va = v := rfl
@[simp] theorem State.setVA_vb (s : State) (v : Dec) : (s.setVA v).vb = s.vb := rfl
@[simp] theorem State.setVA_n (s : State) (v : Dec) : (s.setVA v).n = s.n := rfl
@[simp] theorem State.setVA_vq (s : State) (v : Dec) : (s.setVA v).vq = s.vq := rfl
@[simp] theorem State.setVA_vr (s : State) (v : Dec) : (s.setVA v).vr = s.vr := rfl
@[simp] theorem State.setVA_statusFault (s : State) (v : Dec) : (s.setVA v).statusFault = s.statusFault := rfl
@[simp] theorem State.setVA_pending (s : State) (v : Dec) : (s.setVA v).pending = s.pending := rfl
@[simp] theorem State.setVA_replies (s : State) (v : Dec) : (s.setVA v).replies = s.replies := rfl

@[simp] theorem State.setVB_va (s : State) (v : Dec) : (s.setVB v).va = s.va := rfl
@[simp] theorem State.setVB_vb (s : State) (v : Dec) : (s.setVB v).vb = v := rfl
@[simp] theorem State.setVB_n (s : State) (v : Dec) : (s.setVB v).n = s.n := rfl
@[simp] theorem State.setVB_vq (s : State) (v : Dec) : (s.setVB v).vq = s.vq := rfl
@[simp] theorem State.setVB_vr (s : State) (v : Dec) : (s.setVB v).vr = s.vr := rfl
@[simp] theorem State.setVB_statusFault (s : State) (v : Dec) : (s.setVB v).statusFault = s.statusFault := rfl
@[simp] theorem State.setVB_pending (s : State) (v : Dec) : (s.setVB v).pending = s.pending := rfl
@[simp] theorem State.setVB_replies (s : State) (v : Dec) : (s.setVB v).replies = s.replies := rfl

@[simp] theorem State.setN_va (s : State) (d : IntWord) : (s.setN d).va = s.va := rfl
@[simp] theorem State.setN_vb (s : State) (d : IntWord) : (s.setN d).vb = s.vb := rfl
@[simp] theorem State.setN_n (s : State) (d : IntWord) : (s.setN d).n = d := rfl
@[simp] theorem State.setN_vq (s : State) (d : IntWord) : (s.setN d).vq = s.vq := rfl
@[simp] theorem State.setN_vr (s : State) (d : IntWord) : (s.setN d).vr = s.vr := rfl
@[simp] theorem State.setN_statusFault (s : State) (d : IntWord) : (s.setN d).statusFault = s.statusFault := rfl
@[simp] theorem State.setN_pending (s : State) (d : IntWord) : (s.setN d).pending = s.pending := rfl
@[simp] theorem State.setN_replies (s : State) (d : IntWord) : (s.setN d).replies = s.replies := rfl

@[simp] theorem State.setVQ_va (s : State) (v : Dec) : (s.setVQ v).va = s.va := rfl
@[simp] theorem State.setVQ_vb (s : State) (v : Dec) : (s.setVQ v).vb = s.vb := rfl
@[simp] theorem State.setVQ_n (s : State) (v : Dec) : (s.setVQ v).n = s.n := rfl
@[simp] theorem State.setVQ_vq (s : State) (v : Dec) : (s.setVQ v).vq = v := rfl
@[simp] theorem State.setVQ_vr (s : State) (v : Dec) : (s.setVQ v).vr = s.vr := rfl
@[simp] theorem State.setVQ_statusFault (s : State) (v : Dec) : (s.setVQ v).statusFault = s.statusFault := rfl
@[simp] theorem State.setVQ_pending (s : State) (v : Dec) : (s.setVQ v).pending = s.pending := rfl
@[simp] theorem State.setVQ_replies (s : State) (v : Dec) : (s.setVQ v).replies = s.replies := rfl

@[simp] theorem State.setVR_va (s : State) (v : Dec) : (s.setVR v).va = s.va := rfl
@[simp] theorem State.setVR_vb (s : State) (v : Dec) : (s.setVR v).vb = s.vb := rfl
@[simp] theorem State.setVR_n (s : State) (v : Dec) : (s.setVR v).n = s.n := rfl
@[simp] theorem State.setVR_vq (s : State) (v : Dec) : (s.setVR v).vq = s.vq := rfl
@[simp] theorem State.setVR_vr (s : State) (v : Dec) : (s.setVR v).vr = v := rfl
@[simp] theorem State.setVR_statusFault (s : State) (v : Dec) : (s.setVR v).statusFault = s.statusFault := rfl
@[simp] theorem State.setVR_pending (s : State) (v : Dec) : (s.setVR v).pending = s.pending := rfl
@[simp] theorem State.setVR_replies (s : State) (v : Dec) : (s.setVR v).replies = s.replies := rfl

@[simp] theorem State.reply_va (s : State) (d : Image) : (s.reply d).va = s.va := rfl
@[simp] theorem State.reply_vb (s : State) (d : Image) : (s.reply d).vb = s.vb := rfl
@[simp] theorem State.reply_n (s : State) (d : Image) : (s.reply d).n = s.n := rfl
@[simp] theorem State.reply_vq (s : State) (d : Image) : (s.reply d).vq = s.vq := rfl
@[simp] theorem State.reply_vr (s : State) (d : Image) : (s.reply d).vr = s.vr := rfl
@[simp] theorem State.reply_statusFault (s : State) (d : Image) : (s.reply d).statusFault = s.statusFault := rfl
@[simp] theorem State.reply_pending (s : State) (d : Image) : (s.reply d).pending = s.pending := rfl
@[simp] theorem State.reply_replies (s : State) (d : Image) : (s.reply d).replies = s.replies ++ [d] := rfl

@[simp] theorem State.reset_va : State.reset.va = ⟨0, 0, 0⟩ := rfl
@[simp] theorem State.reset_vb : State.reset.vb = ⟨0, 0, 0⟩ := rfl
@[simp] theorem State.reset_n : State.reset.n = 0 := rfl
@[simp] theorem State.reset_vq : State.reset.vq = ⟨0, 0, 0⟩ := rfl
@[simp] theorem State.reset_vr : State.reset.vr = ⟨0, 0, 0⟩ := rfl
@[simp] theorem State.reset_statusFault : State.reset.statusFault = 0 := rfl
@[simp] theorem State.reset_pending : State.reset.pending = [] := rfl
@[simp] theorem State.reset_replies : State.reset.replies = [] := rfl

@[simp] theorem State.applyReset_va (s : State) : s.applyReset.va = State.reset.va := rfl
@[simp] theorem State.applyReset_vb (s : State) : s.applyReset.vb = State.reset.vb := rfl
@[simp] theorem State.applyReset_n (s : State) : s.applyReset.n = State.reset.n := rfl
@[simp] theorem State.applyReset_vq (s : State) : s.applyReset.vq = State.reset.vq := rfl
@[simp] theorem State.applyReset_vr (s : State) : s.applyReset.vr = State.reset.vr := rfl
@[simp] theorem State.applyReset_statusFault (s : State) : s.applyReset.statusFault = State.reset.statusFault := rfl
@[simp] theorem State.applyReset_pending (s : State) : s.applyReset.pending = s.pending := rfl
@[simp] theorem State.applyReset_replies (s : State) : s.applyReset.replies = s.replies := rfl

@[simp] theorem State.raiseFault_va (c : Cause) (s : State) : (s.raiseFault c).va = s.va := by
  unfold State.raiseFault; split <;> rfl
@[simp] theorem State.raiseFault_vb (c : Cause) (s : State) : (s.raiseFault c).vb = s.vb := by
  unfold State.raiseFault; split <;> rfl
@[simp] theorem State.raiseFault_n (c : Cause) (s : State) : (s.raiseFault c).n = s.n := by
  unfold State.raiseFault; split <;> rfl
@[simp] theorem State.raiseFault_vq (c : Cause) (s : State) : (s.raiseFault c).vq = s.vq := by
  unfold State.raiseFault; split <;> rfl
@[simp] theorem State.raiseFault_vr (c : Cause) (s : State) : (s.raiseFault c).vr = s.vr := by
  unfold State.raiseFault; split <;> rfl
@[simp] theorem State.raiseFault_pending (c : Cause) (s : State) : (s.raiseFault c).pending = s.pending := by
  unfold State.raiseFault; split <;> rfl
@[simp] theorem State.raiseFault_replies (c : Cause) (s : State) : (s.raiseFault c).replies = s.replies := by
  unfold State.raiseFault; split <;> rfl

/-- The latch test in terms of the field. -/
theorem State.faulted_eq_false (s : State) : s.faulted = false ↔ s.statusFault = 0 := by
  simp [State.faulted]

/-- The latch test in terms of the field. -/
theorem State.faulted_eq_true (s : State) : s.faulted = true ↔ s.statusFault ≠ 0 := by
  simp [State.faulted]

/-- With no fault latched, raising one writes the cause and nothing else (R228). -/
theorem State.raiseFault_of_clear (c : Cause) (s : State) (h : s.statusFault = 0) :
    s.raiseFault c = { s with statusFault := causeCode c } :=
  if_neg (by simp [State.faulted, h])

/-- With a fault latched, raising one changes nothing (R228). -/
theorem State.raiseFault_of_latched (c : Cause) (s : State) (h : s.statusFault ≠ 0) : s.raiseFault c = s :=
  if_pos ((State.faulted_eq_true s).2 h)

/-- What raising a fault does to the latch: the first fault wins (R228). -/
theorem State.raiseFault_statusFault (c : Cause) (s : State) :
    (s.raiseFault c).statusFault = if s.statusFault = 0 then causeCode c else s.statusFault := by
  by_cases h : s.statusFault = 0
  · rw [State.raiseFault_of_clear c s h, if_pos h]
  · rw [State.raiseFault_of_latched c s h, if_neg h]

end Sys2Proof.Machine
end

