-- ==== Sys2Proof/Laws/Step.lean ====
section
/-! SUPPORT. What a command and a host action can do, said once: the inversion of exec (R110) and of the port's
reads and writes (R53, R54). -/

namespace Sys2Proof.Machine

theorem State.operandsWf_iff (s : State) : s.operandsWf = true ↔ s.va.wf = true ∧ s.vb.wf = true := by
  rw [State.operandsWf, Bool.and_eq_true]

/-- A frame whose effect writes VQ and VR alone changes nothing else. -/
theorem commandFrame_writes {s t : State} {ok : Bool} {v w : Dec}
    (h : commandFrame s ok { s with vq := v, vr := w } = .next t) (hv : ok = true → v.wf = true)
    (hw : ok = true → w = s.vr ∨ w.wf = true) :
    (s.statusFault ≠ 0 ∧ t = s) ∨
      (s.statusFault = 0 ∧ ∃ v w, t = { s with vq := v, vr := w } ∧ v.wf = true ∧ (w = s.vr ∨ w.wf = true)) := by
  rcases commandFrame_next h with ⟨h1, h2⟩ | ⟨h1, h2, h3⟩
  · exact .inl ⟨h1, h2⟩
  · exact .inr ⟨h1, v, w, h3, hv h2, hw h2⟩

/-- Everything a command that answers a next state has done (R110): nothing, because a fault was latched, or it
wrote a well-formed record to VQ, and to VR if anything at all. -/
theorem exec_next {i : Instr} {s t : State} (h : exec i s = .next t) :
    (s.statusFault ≠ 0 ∧ t = s) ∨
      (s.statusFault = 0 ∧ ∃ v w, t = { s with vq := v, vr := w } ∧ v.wf = true ∧ (w = s.vr ∨ w.wf = true)) := by
  have keep : ∀ ok : Bool, ok = true → s.vr = s.vr ∨ s.vr.wf = true := fun _ _ => .inl rfl
  have two := (State.operandsWf_iff s).1
  have n := fromInt64_wf (sint s.n)
  cases i with
  | canon => exact commandFrame_writes (w := s.vr) h Dec.canonical_wf (keep _)
  | abs => exact commandFrame_writes (w := s.vr) h absOp_wf (keep _)
  | neg => exact commandFrame_writes (w := s.vr) h negOp_wf (keep _)
  | sqrt => exact commandFrame_writes (w := s.vr) h sqrtOp_wf (keep _)
  | powi => exact commandFrame_writes (w := s.vr) h (powOp_wf _) (keep _)
  | fromi => exact commandFrame_writes (w := s.vr) h (fun _ => n) (keep _)
  | add => exact commandFrame_writes (w := s.vr) h (fun o => addOp_wf (two o).1 (two o).2) (keep _)
  | sub => exact commandFrame_writes (w := s.vr) h (fun o => subOp_wf (two o).1 (two o).2) (keep _)
  | mul => exact commandFrame_writes (w := s.vr) h (fun o => mulOp_wf (two o).1 (two o).2) (keep _)
  | div => exact commandFrame_writes (w := s.vr) h (fun o => divOp_wf (two o).1 (two o).2) (keep _)
  | mod => exact commandFrame_writes (w := s.vr) h (fun o => modOp_wf (two o).1 (two o).2) (keep _)
  | quorem =>
    exact commandFrame_writes h (fun o => (quoRemOp_wf (two o).1 (two o).2).1)
      (fun o => .inr (quoRemOp_wf (two o).1 (two o).2).2)
  | addi => exact commandFrame_writes (w := s.vr) h (fun o => addOp_wf o n) (keep _)
  | subi => exact commandFrame_writes (w := s.vr) h (fun o => subOp_wf o n) (keep _)
  | muli => exact commandFrame_writes (w := s.vr) h (fun o => mulOp_wf o n) (keep _)
  | divi => exact commandFrame_writes (w := s.vr) h (fun o => divOp_wf o n) (keep _)
  | modi => exact commandFrame_writes (w := s.vr) h (fun o => modOp_wf o n) (keep _)
  | quoremi =>
    exact commandFrame_writes h (fun o => (quoRemOp_wf o n).1) (fun o => .inr (quoRemOp_wf o n).2)
  | rdown p => exact commandFrame_writes (w := s.vr) h (roundOp_wf _ p) (keep _)
  | rup p => exact commandFrame_writes (w := s.vr) h (roundOp_wf _ p) (keep _)
  | rtz p => exact commandFrame_writes (w := s.vr) h (roundOp_wf _ p) (keep _)
  | rafz p => exact commandFrame_writes (w := s.vr) h (roundOp_wf _ p) (keep _)
  | rhtz p => exact commandFrame_writes (w := s.vr) h (roundOp_wf _ p) (keep _)
  | rhafz p => exact commandFrame_writes (w := s.vr) h (roundOp_wf _ p) (keep _)
  | rbank p => exact commandFrame_writes (w := s.vr) h (roundOp_wf _ p) (keep _)
  | trunc p => exact commandFrame_writes (w := s.vr) h (roundOp_wf _ p) (keep _)

/-- Every command is one frame around one effect. -/
theorem exec_frame (i : Instr) (s : State) : ∃ ok after, exec i s = commandFrame s ok after ∧
    (s.va.wf = true → s.vb.wf = true → ok = true) := by
  have one : s.va.wf = true → s.vb.wf = true → s.va.wf = true := fun h _ => h
  have two : s.va.wf = true → s.vb.wf = true → s.operandsWf = true :=
    fun h h' => (State.operandsWf_iff s).2 ⟨h, h'⟩
  cases i with
  | fromi => exact ⟨_, _, rfl, fun _ _ => rfl⟩
  | add | sub | mul | div | mod | quorem => exact ⟨_, _, rfl, two⟩
  | canon | abs | neg | sqrt | powi | addi | subi | muli | divi | modi | quoremi => exact ⟨_, _, rfl, one⟩
  | rdown p | rup p | rtz p | rafz p | rhtz p | rhafz p | rbank p | trunc p => exact ⟨_, _, rfl, one⟩

/-- On well-formed operands every command answers a next state (R110). -/
theorem exec_completes (i : Instr) {s : State} (ha : s.va.wf = true) (hb : s.vb.wf = true) :
    ∃ t, exec i s = .next t := by
  obtain ⟨ok, after, e, hok⟩ := exec_frame i s
  rw [e, hok ha hb]
  rcases commandFrame_cases s after true with ⟨-, e⟩ | ⟨-, -, e⟩ | ⟨-, e, -⟩
  · exact ⟨_, e⟩
  · exact ⟨_, e⟩
  · cases e

/-- What a read leaves (R53): one more value for the host, and perhaps a latched fault. -/
theorem hostRead_spec (idx : RegIndex) (s : State) :
    ∃ d f, hostRead idx s = { s with replies := s.replies ++ [d], statusFault := f } ∧
      (f = s.statusFault ∨ (s.statusFault = 0 ∧ f = causeCode .access)) := by
  unfold hostRead
  cases s.readable idx with
  | some d => exact ⟨d, s.statusFault, rfl, .inl rfl⟩
  | none =>
    by_cases h : s.statusFault = 0
    · exact ⟨0, causeCode .access, State.raiseFault_of_clear _ _ h, .inr ⟨h, rfl⟩⟩
    · exact ⟨0, s.statusFault, State.raiseFault_of_latched _ _ h, .inl rfl⟩

/-- What a write can do (R54): nothing, one operand register, a latched fault, or a command. -/
theorem hostWrite_cases (idx : RegIndex) (data : Image) (s : State) :
    (s.statusFault ≠ 0 ∧ hostWrite idx data s = .next s) ∨
      (s.statusFault = 0 ∧ (Dec.ofImage data).wf = true ∧
        hostWrite idx data s = .next { s with va := Dec.ofImage data }) ∨
      (s.statusFault = 0 ∧ (Dec.ofImage data).wf = true ∧
        hostWrite idx data s = .next { s with vb := Dec.ofImage data }) ∨
      (s.statusFault = 0 ∧ hostWrite idx data s = .next { s with n := data.setWidth 64 }) ∨
      (s.statusFault = 0 ∧ ∃ c, hostWrite idx data s = .next { s with statusFault := causeCode c }) ∨
      (s.statusFault = 0 ∧ ∃ i, decode (data.setWidth 16) = .ok i ∧ hostWrite idx data s = exec i s) := by
  by_cases h : s.statusFault = 0
  · have clear : ∀ c, s.raiseFault c = { s with statusFault := causeCode c } :=
      fun c => State.raiseFault_of_clear c s h
    refine .inr ?_
    unfold hostWrite writeOperand writeCommand
    rw [if_neg (by simp [State.faulted, h])]
    split
    · split
      case isTrue hw => exact .inl ⟨h, hw, rfl⟩
      case isFalse => exact .inr (.inr (.inr (.inl ⟨h, .operand, by rw [clear]⟩)))
    · split
      case isTrue hw => exact .inr (.inl ⟨h, hw, rfl⟩)
      case isFalse => exact .inr (.inr (.inr (.inl ⟨h, .operand, by rw [clear]⟩)))
    · exact .inr (.inr (.inl ⟨h, rfl⟩))
    · split
      case h_1 i hi => exact .inr (.inr (.inr (.inr ⟨h, i, hi, rfl⟩)))
      case h_2 => exact .inr (.inr (.inr (.inl ⟨h, .illcmd, by rw [clear]⟩)))
    · exact .inr (.inr (.inr (.inl ⟨h, .access, by rw [clear]⟩)))
  · exact .inl ⟨h, if_pos ((State.faulted_eq_true s).2 h)⟩

/-- The step on a queue with a first action. -/
theorem step_of_pending {s : State} {a : HostAction} {rest : List HostAction} (h : s.pending = a :: rest) :
    step s = perform a { s with pending := rest } := by
  unfold step
  rw [h]

end Sys2Proof.Machine
end

