-- ==== Sys2Proof/Tests/Slice0.lean ====
section
/-! SUPPORT. The model's own tests. Every expected value is copied from the spec: the encodings from R73, the
vectors V1 to V14 and the programs from spec/95_test_vectors.md. Then the witnesses: states and operands that meet
the hypotheses of each statement, clause by clause. -/

namespace Sys2Proof.Tests

open Sys2Proof Sys2Proof.Machine

-- One thread: the kernel's work on many small theorems at once needs more memory than a run may take.
set_option Elab.async false

/-! ### Helpers -/

/-- The next state, if there is one. -/
def nextOf (o : Host.Outcome State Fault Refusal) : Option State :=
  match o with
  | .next t => some t
  | .fault _ => none
  | .refused _ => none

theorem next_of_some {o : Host.Outcome State Fault Refusal} {t : State} (h : nextOf o = some t) : o = .next t := by
  cases o with
  | next s => exact congrArg Host.Outcome.next (Option.some.inj h)
  | fault r => cases h
  | refused r => cases h

/-- A block just reset, with its operand registers loaded and a marked record in VR. -/
def loaded (va vb : Dec) (n : IntWord) : State :=
  { State.reset with va := va, vb := vb, n := n, vr := ⟨77, 7, 0⟩ }

/-- What a command leaves in VQ and VR. -/
def results (i : Instr) (s : State) : Option (Dec × Dec) :=
  (nextOf (exec i s)).map fun t => (t.vq, t.vr)

/-- VQ after a command that must leave VR alone. -/
def vqOf (i : Instr) (va vb : Dec) (n : IntWord) : Option Dec :=
  match results i (loaded va vb n) with
  | some (q, r) => if r = ⟨77, 7, 0⟩ then some q else none
  | none => none

/-- One host action on a state with nothing else to do. -/
def act (a : HostAction) (s : State) : Option State := nextOf (step { s with pending := [a] })

/-- The operands of the V13 rows: VA = 1.23, VB = 4.56. -/
def v13 : State := { State.reset with va := ⟨123, 2, 0⟩, vb := ⟨456, 2, 0⟩ }

/-- The same with ILLCMD latched, as after V13.1. -/
def v13f : State := { v13 with statusFault := 1 }

/-! ### Well-formedness refuses ill-formed terms -/

/-- R72: a precision of 255 is the largest, 256 needs a ninth bit. -/
theorem test_wf_precision : Instr.wf (.rdown 255) = true ∧ Instr.wf (.rdown 256) = false := by decide

/-- R72: the check stands on each rounding command, and the others carry nothing to check. -/
theorem test_wf_every_rounding_command :
    [Instr.rup 256, .rtz 256, .rafz 256, .rhtz 256, .rhafz 256, .rbank 256, .trunc 256].all (fun i => !i.wf) = true ∧
      [Instr.canon, .powi, .quorem, .addi].all Instr.wf = true := by decide

/-- R26, V13.8, V13.10, V13.12: exponent 20 is ill-formed on a finite record, a zero one too, and any exponent is
well-formed on an error value. -/
theorem test_wf_record : Dec.wf ⟨1, 20, 0⟩ = false ∧ Dec.wf ⟨0, 20, 1⟩ = false ∧ Dec.wf ⟨1, 19, 0⟩ = true ∧
    Dec.wf ⟨1, 255, 2⟩ = true := by decide

/-! ### Decoding: imm8 in the high eight bits, the opcode in the low eight (R70, R73) -/

theorem test_decode_unary :
    decode 0b00000000_00000001 = .ok .canon ∧ decode 0b00000000_00000010 = .ok .abs ∧
      decode 0b00000000_00000011 = .ok .neg ∧ decode 0b00000000_00000100 = .ok .sqrt ∧
      decode 0b00000000_00000101 = .ok .powi ∧ decode 0b00000000_00000110 = .ok .fromi := by
  refine ⟨?_, ?_, ?_, ?_, ?_, ?_⟩ <;> rfl

theorem test_decode_binary :
    decode 0b00000000_00010000 = .ok .add ∧ decode 0b00000000_00010001 = .ok .sub ∧
      decode 0b00000000_00010010 = .ok .mul ∧ decode 0b00000000_00010011 = .ok .div ∧
      decode 0b00000000_00010100 = .ok .mod ∧ decode 0b00000000_00010101 = .ok .quorem := by
  refine ⟨?_, ?_, ?_, ?_, ?_, ?_⟩ <;> rfl

theorem test_decode_integer :
    decode 0b00000000_00011000 = .ok .addi ∧ decode 0b00000000_00011001 = .ok .subi ∧
      decode 0b00000000_00011010 = .ok .muli ∧ decode 0b00000000_00011011 = .ok .divi ∧
      decode 0b00000000_00011100 = .ok .modi ∧ decode 0b00000000_00011101 = .ok .quoremi := by
  refine ⟨?_, ?_, ?_, ?_, ?_, ?_⟩ <;> rfl

theorem test_decode_rounding :
    decode 0b00000010_00100000 = .ok (.rdown 2) ∧ decode 0b00000101_00100001 = .ok (.rup 5) ∧
      decode 0b00000001_00100010 = .ok (.rtz 1) ∧ decode 0b11111111_00100011 = .ok (.rafz 255) ∧
      decode 0b00000000_00100100 = .ok (.rhtz 0) ∧ decode 0b10000000_00100101 = .ok (.rhafz 128) ∧
      decode 0b00000010_00100110 = .ok (.rbank 2) ∧ decode 0b00010011_00100111 = .ok (.trunc 19) := by
  refine ⟨?_, ?_, ?_, ?_, ?_, ?_, ?_, ?_⟩ <;> rfl

/-- R74, V13.1 to V13.5 and V13.7: illegal words, by name. -/
theorem test_decode_rejects :
    decode 0x0000 = .error (.unlistedOpcode 0) ∧ decode 0xFFFF = .error (.unlistedOpcode 0xFF) ∧
      decode 0x0110 = .error (.nonzeroImm8 0x10 1) ∧ decode 0x0016 = .error (.unlistedOpcode 0x16) ∧
      decode 0x0028 = .error (.unlistedOpcode 0x28) ∧ decode 0x0007 = .error (.unlistedOpcode 7) := by
  refine ⟨?_, ?_, ?_, ?_, ?_, ?_⟩ <;> rfl

/-- V14 and R80: the bytes of RBANK #2 are 26 02, and one byte alone is no command. -/
theorem test_decode_bytes :
    decodeBytes [0x26, 0x02, 0xAA] = .ok (.rbank 2, [0xAA]) ∧ decodeBytes [0x26] = .error (.truncated 1) ∧
      bytesLE 2 (encode (.rbank 2)) = [0x26, 0x02] := by
  refine ⟨rfl, rfl, ?_⟩
  decide

/-- The table's numbering: bit 0 is the least significant bit of the word. A ninth bit above `nbits` is 0. -/
theorem test_decode_table_word :
    decodeTableWord 16 0x0226 = some (.rbank 2) ∧ decodeTableWord 16 0x0010 = some .add ∧
      decodeTableWord 16 0x0110 = none ∧ decodeTableWord 8 0x0110 = some .add := by decide

/-- R80: the assembler's text and word. -/
theorem test_assembly : assembly (.rbank 2) = "RBANK #2" ∧ assembly .quoremi = "QUOREMI" ∧
    encode (.rbank 2) = 0x0226 ∧ encode .quoremi = 0x001D := by decide

/-! ### Commands, on vectors of the spec -/

/-- V1.2, V1.3, V1.4, V1.9. -/
theorem test_canon : vqOf .canon ⟨1000, 2, 0⟩ ⟨9, 9, 2⟩ 0 = some ⟨10, 0, 0⟩ ∧
    vqOf .canon ⟨0, 5, 1⟩ ⟨9, 9, 2⟩ 0 = some ⟨0, 0, 1⟩ ∧
    vqOf .canon ⟨100000000000000000000000000000000000000, 19, 0⟩ ⟨9, 9, 2⟩ 0 = some ⟨10000000000000000000, 0, 0⟩ ∧
    vqOf .canon ⟨7, 3, 2⟩ ⟨9, 9, 2⟩ 0 = some ⟨7, 3, 2⟩ := by decide +kernel

/-- V7.1, V7.3, V7.5. -/
theorem test_abs : vqOf .abs ⟨15, 1, 1⟩ ⟨9, 9, 2⟩ 0 = some ⟨15, 1, 0⟩ ∧
    vqOf .abs ⟨0, 3, 1⟩ ⟨9, 9, 2⟩ 0 = some ⟨0, 3, 0⟩ ∧
    vqOf .abs ⟨7, 3, 2⟩ ⟨9, 9, 2⟩ 0 = some ⟨7, 3, 2⟩ := by decide +kernel

/-- V7.1, V7.4, V7.6. -/
theorem test_neg : vqOf .neg ⟨15, 1, 1⟩ ⟨9, 9, 2⟩ 0 = some ⟨15, 1, 0⟩ ∧
    vqOf .neg ⟨0, 0, 0⟩ ⟨9, 9, 2⟩ 0 = some ⟨0, 0, 1⟩ ∧
    vqOf .neg ⟨0, 0, 3⟩ ⟨9, 9, 2⟩ 0 = some ⟨0, 0, 3⟩ := by decide +kernel

/-- V8.1, V8.9, V8.8: the smallest operand and the largest radicand. -/
theorem test_sqrt_root : vqOf .sqrt ⟨2, 0, 0⟩ ⟨9, 9, 2⟩ 0 = some ⟨14142135623730950488, 19, 0⟩ ∧
    vqOf .sqrt ⟨1, 19, 0⟩ ⟨9, 9, 2⟩ 0 = some ⟨3162277660, 19, 0⟩ ∧
    vqOf .sqrt ⟨340282366920938463463374607431768211455, 0, 0⟩ ⟨9, 9, 2⟩ 0 =
      some ⟨184467440737095516159999999999999999999, 19, 0⟩ := by decide +kernel

/-- V8.5, V8.10, V8.11, V8.17: the special cases in their order. -/
theorem test_sqrt_special : vqOf .sqrt ⟨10, 1, 0⟩ ⟨9, 9, 2⟩ 0 = some ⟨1, 0, 0⟩ ∧
    vqOf .sqrt ⟨9, 0, 1⟩ ⟨9, 9, 2⟩ 0 = some ⟨0, 0, 5⟩ ∧ vqOf .sqrt ⟨0, 7, 1⟩ ⟨9, 9, 2⟩ 0 = some ⟨0, 0, 0⟩ ∧
    vqOf .sqrt ⟨1, 0, 1⟩ ⟨9, 9, 2⟩ 0 = some ⟨0, 0, 5⟩ := by decide +kernel

/-- V9.2, V9.3, V9.4, V9.11, V9.12, V9.14. -/
theorem test_powi_positive : vqOf .powi ⟨15, 1, 0⟩ ⟨9, 9, 2⟩ 3 = some ⟨3375, 3, 0⟩ ∧
    vqOf .powi ⟨2, 0, 0⟩ ⟨9, 9, 2⟩ 127 = some ⟨170141183460469231731687303715884105728, 0, 0⟩ ∧
    vqOf .powi ⟨2, 0, 0⟩ ⟨9, 9, 2⟩ 128 = some ⟨0, 0, 3⟩ ∧
    vqOf .powi ⟨11, 1, 0⟩ ⟨9, 9, 2⟩ 19 = some ⟨61159090448414546291, 19, 0⟩ ∧
    vqOf .powi ⟨11, 1, 0⟩ ⟨9, 9, 2⟩ 20 = some ⟨0, 0, 3⟩ ∧
    vqOf .powi ⟨1, 0, 0⟩ ⟨9, 9, 2⟩ 0x7FFFFFFFFFFFFFFF = some ⟨1, 0, 0⟩ := by decide +kernel

/-- V9.9, V9.13, V9.15, V9.19, V9.20, V9.23. -/
theorem test_powi_negative : vqOf .powi ⟨0, 0, 0⟩ ⟨9, 9, 2⟩ 0xFFFFFFFFFFFFFFFF = some ⟨0, 0, 4⟩ ∧
    vqOf .powi ⟨1, 0, 0⟩ ⟨9, 9, 2⟩ 0x8000000000000000 = some ⟨0, 0, 3⟩ ∧
    vqOf .powi ⟨5, 1, 0⟩ ⟨9, 9, 2⟩ 0xFFFFFFFFFFFFFFFD = some ⟨80000000000000000000, 19, 0⟩ ∧
    vqOf .powi ⟨7, 3, 2⟩ ⟨9, 9, 2⟩ 0 = some ⟨7, 3, 2⟩ ∧
    vqOf .powi ⟨0, 0, 4⟩ ⟨9, 9, 2⟩ 0x8000000000000000 = some ⟨0, 0, 4⟩ ∧
    vqOf .powi ⟨2, 0, 1⟩ ⟨9, 9, 2⟩ 0xFFFFFFFFFFFFFFFF = some ⟨5000000000000000000, 19, 1⟩ := by decide +kernel

/-- V11.1, V11.3, V11.5, V11.6, with an operand register no other command could use. -/
theorem test_fromi : vqOf .fromi ⟨0, 99, 2⟩ ⟨9, 9, 2⟩ 0 = some ⟨0, 0, 0⟩ ∧
    vqOf .fromi ⟨0, 99, 2⟩ ⟨9, 9, 2⟩ 0xFFFFFFFFFFFFFFFF = some ⟨1, 0, 1⟩ ∧
    vqOf .fromi ⟨0, 99, 2⟩ ⟨9, 9, 2⟩ 0x8000000000000000 = some ⟨9223372036854775808, 0, 1⟩ ∧
    vqOf .fromi ⟨0, 99, 2⟩ ⟨9, 9, 2⟩ 0x7FFFFFFFFFFFFFFF = some ⟨9223372036854775807, 0, 0⟩ := by decide +kernel

/-- V2.2, V2.3, V2.11, V2.9: alignment, signs, cancellation, two negative zeros. -/
theorem test_add : vqOf .add ⟨1, 0, 0⟩ ⟨5, 3, 0⟩ 0 = some ⟨1005, 3, 0⟩ ∧
    vqOf .add ⟨5, 0, 0⟩ ⟨7, 0, 1⟩ 0 = some ⟨2, 0, 1⟩ ∧ vqOf .add ⟨5, 1, 0⟩ ⟨5, 1, 1⟩ 0 = some ⟨0, 1, 0⟩ ∧
    vqOf .add ⟨0, 3, 1⟩ ⟨0, 1, 1⟩ 0 = some ⟨0, 3, 1⟩ := by decide +kernel

/-- V2.7, V2.10, V2.5, V2.15: the canonical retry, overflow and an error operand. -/
theorem test_add_phases :
    vqOf .add ⟨30000000000000000000000000000000000000, 0, 0⟩ ⟨5000, 4, 0⟩ 0 =
      some ⟨300000000000000000000000000000000000005, 1, 0⟩ ∧
    vqOf .add ⟨200000000000000000000000000000000000000, 1, 0⟩ ⟨200000000000000000000000000000000000000, 1, 0⟩ 0 =
      some ⟨40000000000000000000000000000000000000, 0, 0⟩ ∧
    vqOf .add ⟨340282366920938463463374607431768211455, 0, 0⟩ ⟨1, 0, 0⟩ 0 = some ⟨0, 0, 3⟩ ∧
    vqOf .add ⟨7, 3, 2⟩ ⟨1, 0, 0⟩ 0 = some ⟨7, 3, 2⟩ := by decide +kernel

/-- V3.1, V3.5, V3.8, V3.9. -/
theorem test_sub : vqOf .sub ⟨123, 2, 0⟩ ⟨456, 2, 0⟩ 0 = some ⟨333, 2, 1⟩ ∧
    vqOf .sub ⟨5, 0, 1⟩ ⟨5, 0, 1⟩ 0 = some ⟨0, 0, 0⟩ ∧ vqOf .sub ⟨3, 0, 0⟩ ⟨0, 2, 1⟩ 0 = some ⟨300, 2, 0⟩ ∧
    vqOf .sub ⟨1, 0, 0⟩ ⟨9, 1, 2⟩ 0 = some ⟨9, 1, 2⟩ := by decide +kernel

/-- V4.1, V4.8, V4.11, V4.12. -/
theorem test_mul : vqOf .mul ⟨15, 1, 0⟩ ⟨25, 1, 1⟩ 0 = some ⟨375, 2, 1⟩ ∧
    vqOf .mul ⟨0, 5, 1⟩ ⟨3, 0, 0⟩ 0 = some ⟨0, 0, 0⟩ ∧ vqOf .mul ⟨1, 19, 0⟩ ⟨1, 0, 0⟩ 0 = some ⟨1, 19, 0⟩ ∧
    vqOf .mul ⟨1, 19, 0⟩ ⟨1, 1, 0⟩ 0 = some ⟨0, 0, 3⟩ := by decide +kernel

/-- V4.2, V4.3, V4.4, V4.13. -/
theorem test_mul_phases : vqOf .mul ⟨250, 2, 0⟩ ⟨40000000000000000000, 19, 0⟩ 0 = some ⟨100, 1, 0⟩ ∧
    vqOf .mul ⟨18446744073709551616, 0, 0⟩ ⟨18446744073709551616, 0, 0⟩ 0 = some ⟨0, 0, 3⟩ ∧
    vqOf .mul ⟨18446744073709551615, 0, 0⟩ ⟨18446744073709551617, 0, 0⟩ 0 =
      some ⟨340282366920938463463374607431768211455, 0, 0⟩ ∧
    vqOf .mul ⟨0, 0, 3⟩ ⟨0, 0, 0⟩ 0 = some ⟨0, 0, 3⟩ := by decide +kernel

/-- V5.1, V5.2, V5.3, V5.9. -/
theorem test_div : vqOf .div ⟨1, 0, 0⟩ ⟨3, 0, 0⟩ 0 = some ⟨3333333333333333333, 19, 0⟩ ∧
    vqOf .div ⟨2, 0, 0⟩ ⟨15, 1, 0⟩ 0 = some ⟨13333333333333333333, 19, 0⟩ ∧
    vqOf .div ⟨7, 0, 1⟩ ⟨2, 0, 0⟩ 0 = some ⟨35000000000000000000, 19, 1⟩ ∧
    vqOf .div ⟨1, 19, 0⟩ ⟨3, 0, 1⟩ 0 = some ⟨0, 19, 1⟩ := by decide +kernel

/-- V5.7, V5.8, V5.11, V5.12, V5.18. -/
theorem test_div_phases : vqOf .div ⟨1, 0, 0⟩ ⟨18446744073709551616, 0, 0⟩ 0 = some ⟨0, 0, 3⟩ ∧
    vqOf .div ⟨1, 0, 0⟩ ⟨18446744073709551615, 0, 0⟩ 0 = some ⟨0, 19, 0⟩ ∧
    vqOf .div ⟨0, 0, 0⟩ ⟨0, 3, 1⟩ 0 = some ⟨0, 0, 4⟩ ∧ vqOf .div ⟨0, 4, 1⟩ ⟨7, 0, 0⟩ 0 = some ⟨0, 0, 0⟩ ∧
    vqOf .div ⟨34, 0, 0⟩ ⟨10000000000000000000, 19, 0⟩ 0 = some ⟨340000000000000000000, 19, 0⟩ := by decide +kernel

/-- V6.1, V6.3, V6.10: MOD delivers the remainder column, and VR keeps its mark. -/
theorem test_mod : vqOf .mod ⟨7, 0, 0⟩ ⟨2, 0, 0⟩ 0 = some ⟨0, 19, 0⟩ ∧
    vqOf .mod ⟨2, 0, 0⟩ ⟨15, 1, 0⟩ 0 = some ⟨5, 19, 0⟩ ∧ vqOf .mod ⟨5, 0, 0⟩ ⟨0, 0, 0⟩ 0 = some ⟨0, 0, 4⟩ := by
  decide +kernel

/-- V6.3, V6.4, V6.6, V6.7. -/
theorem test_quorem :
    results .quorem (loaded ⟨2, 0, 0⟩ ⟨15, 1, 0⟩ 0) = some (⟨1333333333333333333, 18, 0⟩, ⟨5, 19, 0⟩) ∧
    results .quorem (loaded ⟨10, 0, 0⟩ ⟨3, 19, 0⟩ 0) = some (⟨33333333333333333333, 0, 0⟩, ⟨1, 19, 0⟩) ∧
    results .quorem (loaded ⟨7, 0, 1⟩ ⟨2, 0, 0⟩ 0) = some (⟨35000000000000000000, 19, 1⟩, ⟨0, 19, 1⟩) ∧
    results .quorem (loaded ⟨7, 0, 0⟩ ⟨2, 0, 1⟩ 0) = some (⟨35000000000000000000, 19, 1⟩, ⟨0, 19, 0⟩) := by
  decide +kernel

/-- V6.5, V6.11, V6.12, V6.13: both registers are written in the corner cases too. -/
theorem test_quorem_corners :
    results .quorem (loaded ⟨40000000000000000000, 0, 0⟩ ⟨7, 0, 0⟩ 0) = some (⟨0, 0, 3⟩, ⟨0, 0, 3⟩) ∧
    results .quorem (loaded ⟨0, 2, 1⟩ ⟨5, 0, 0⟩ 0) = some (⟨0, 0, 0⟩, ⟨0, 0, 0⟩) ∧
    results .quorem (loaded ⟨0, 0, 5⟩ ⟨1, 0, 0⟩ 0) = some (⟨0, 0, 5⟩, ⟨0, 0, 5⟩) ∧
    results .quorem (loaded ⟨1, 0, 0⟩ ⟨0, 0, 2⟩ 0) = some (⟨0, 0, 2⟩, ⟨0, 0, 2⟩) := by decide +kernel

/-- V12.1 and V12.4: ADDI with N = 2 and with the most negative N. -/
theorem test_addi : vqOf .addi ⟨15, 1, 0⟩ ⟨9, 9, 2⟩ 2 = some ⟨35, 1, 0⟩ ∧
    vqOf .addi ⟨15, 1, 0⟩ ⟨9, 9, 2⟩ 0x8000000000000000 = some ⟨92233720368547758065, 1, 1⟩ := by decide +kernel

/-- V12.1 and V12.14. -/
theorem test_subi : vqOf .subi ⟨15, 1, 0⟩ ⟨9, 9, 2⟩ 2 = some ⟨5, 1, 1⟩ ∧
    vqOf .subi ⟨0, 0, 0⟩ ⟨9, 9, 2⟩ 0x8000000000000000 = some ⟨9223372036854775808, 0, 0⟩ := by decide +kernel

/-- V12.2 and V12.12. -/
theorem test_muli : vqOf .muli ⟨15, 1, 0⟩ ⟨9, 9, 2⟩ 0xFFFFFFFFFFFFFFFE = some ⟨30, 1, 1⟩ ∧
    vqOf .muli ⟨18446744073709551616, 0, 0⟩ ⟨9, 9, 2⟩ 0x8000000000000000 =
      some ⟨170141183460469231731687303715884105728, 0, 1⟩ := by decide +kernel

/-- V12.3 and V12.10. -/
theorem test_divi : vqOf .divi ⟨15, 1, 0⟩ ⟨9, 9, 2⟩ 0 = some ⟨0, 0, 4⟩ ∧
    vqOf .divi ⟨10, 0, 0⟩ ⟨9, 9, 2⟩ 4 = some ⟨25000000000000000000, 19, 0⟩ := by decide +kernel

/-- V12.4 and V12.16. -/
theorem test_modi : vqOf .modi ⟨15, 1, 0⟩ ⟨9, 9, 2⟩ 0x8000000000000000 = some ⟨5776627963145224192, 19, 0⟩ ∧
    vqOf .modi ⟨10, 0, 0⟩ ⟨9, 9, 2⟩ 3 = some ⟨1, 19, 0⟩ := by decide +kernel

/-- V12.17 and V12.18. -/
theorem test_quoremi :
    results .quoremi (loaded ⟨10, 0, 0⟩ ⟨9, 9, 2⟩ 3) = some (⟨33333333333333333333, 19, 0⟩, ⟨1, 19, 0⟩) ∧
    results .quoremi (loaded ⟨75, 1, 0⟩ ⟨9, 9, 2⟩ 0xFFFFFFFFFFFFFFFE) =
      some (⟨37500000000000000000, 19, 1⟩, ⟨0, 19, 0⟩) := by decide +kernel

/-- V10.1, V10.3, V10.7, V10.28. -/
theorem test_rdown : vqOf (.rdown 2) ⟨2125, 3, 0⟩ ⟨9, 9, 2⟩ 0 = some ⟨212, 2, 0⟩ ∧
    vqOf (.rdown 2) ⟨2125, 3, 1⟩ ⟨9, 9, 2⟩ 0 = some ⟨213, 2, 1⟩ ∧
    vqOf (.rdown 0) ⟨4, 1, 1⟩ ⟨9, 9, 2⟩ 0 = some ⟨1, 0, 1⟩ ∧
    vqOf (.rdown 0) ⟨340282366920938463463374607431768211455, 19, 1⟩ ⟨9, 9, 2⟩ 0 =
      some ⟨34028236692093846347, 0, 1⟩ := by decide +kernel

/-- V10.1, V10.3, V10.23. -/
theorem test_rup : vqOf (.rup 2) ⟨2125, 3, 0⟩ ⟨9, 9, 2⟩ 0 = some ⟨213, 2, 0⟩ ∧
    vqOf (.rup 2) ⟨2125, 3, 1⟩ ⟨9, 9, 2⟩ 0 = some ⟨212, 2, 1⟩ ∧
    vqOf (.rup 5) ⟨123, 2, 0⟩ ⟨9, 9, 2⟩ 0 = some ⟨123, 2, 0⟩ := by decide +kernel

/-- V10.2, V10.7. -/
theorem test_rtz : vqOf (.rtz 2) ⟨2135, 3, 0⟩ ⟨9, 9, 2⟩ 0 = some ⟨213, 2, 0⟩ ∧
    vqOf (.rtz 0) ⟨4, 1, 1⟩ ⟨9, 9, 2⟩ 0 = some ⟨0, 0, 1⟩ := by decide +kernel

/-- V10.12, V10.20, V10.24. -/
theorem test_rafz : vqOf (.rafz 0) ⟨1, 19, 0⟩ ⟨9, 9, 2⟩ 0 = some ⟨1, 0, 0⟩ ∧
    vqOf (.rafz 0) ⟨340282366920938463463374607431768211455, 1, 0⟩ ⟨9, 9, 2⟩ 0 =
      some ⟨34028236692093846346337460743176821146, 0, 0⟩ ∧
    vqOf (.rafz 255) ⟨123, 2, 0⟩ ⟨9, 9, 2⟩ 0 = some ⟨123, 2, 0⟩ := by decide +kernel

/-- V10.1, V10.5: a tie and one above it. -/
theorem test_rhtz : vqOf (.rhtz 2) ⟨2125, 3, 0⟩ ⟨9, 9, 2⟩ 0 = some ⟨212, 2, 0⟩ ∧
    vqOf (.rhtz 2) ⟨2126, 3, 0⟩ ⟨9, 9, 2⟩ 0 = some ⟨213, 2, 0⟩ := by decide +kernel

/-- V10.3, V10.6, V10.27. -/
theorem test_rhafz : vqOf (.rhafz 2) ⟨2125, 3, 1⟩ ⟨9, 9, 2⟩ 0 = some ⟨213, 2, 1⟩ ∧
    vqOf (.rhafz 2) ⟨2124, 3, 1⟩ ⟨9, 9, 2⟩ 0 = some ⟨212, 2, 1⟩ ∧
    vqOf (.rhafz 0) ⟨999, 1, 0⟩ ⟨9, 9, 2⟩ 0 = some ⟨100, 0, 0⟩ := by decide +kernel

/-- V10.1, V10.2, V10.5, V10.25: a tie at an even and at an odd quotient. -/
theorem test_rbank : vqOf (.rbank 2) ⟨2125, 3, 0⟩ ⟨9, 9, 2⟩ 0 = some ⟨212, 2, 0⟩ ∧
    vqOf (.rbank 2) ⟨2135, 3, 0⟩ ⟨9, 9, 2⟩ 0 = some ⟨214, 2, 0⟩ ∧
    vqOf (.rbank 2) ⟨2126, 3, 0⟩ ⟨9, 9, 2⟩ 0 = some ⟨213, 2, 0⟩ ∧
    vqOf (.rbank 0) ⟨7, 3, 2⟩ ⟨9, 9, 2⟩ 0 = some ⟨7, 3, 2⟩ := by decide +kernel

/-- V10.17, V13.6. -/
theorem test_trunc : vqOf (.trunc 2) ⟨0, 5, 1⟩ ⟨9, 9, 2⟩ 0 = some ⟨0, 2, 1⟩ ∧
    vqOf (.trunc 255) ⟨123, 2, 0⟩ ⟨9, 9, 2⟩ 0 = some ⟨123, 2, 0⟩ := by decide +kernel

/-! ### The port, the latch and reset (V13, V14) -/

/-- V13.1 to V13.7. -/
theorem test_port_command_words :
    [0x0000, 0xFFFF, 0x0110, 0x0016, 0x0028, 0x0007].all
      (fun w => act (.write 3 w) v13 = some { v13 with statusFault := 1 }) = true ∧
    act (.write 3 0xFF27) v13 = some { v13 with vq := ⟨123, 2, 0⟩ } := by decide +kernel

/-- V13.8 to V13.12: images written to VA and VB. -/
theorem test_port_operand_writes :
    act (.write 0 0x001400000000000000000000000000000001) v13 = some { v13 with statusFault := 2 } ∧
    act (.write 0 0x0013FFFFFFFFFFFFFFFFFFFFFFFFFFFFFFFF) v13 =
      some { v13 with va := ⟨340282366920938463463374607431768211455, 19, 0⟩ } ∧
    act (.write 1 0x02FFFFFFFFFFFFFFFFFFFFFFFFFFFFFFFFFF) v13 =
      some { v13 with vb := ⟨340282366920938463463374607431768211455, 255, 2⟩ } ∧
    act (.write 0 0x070000000000000000000000000000000000) v13 = some { v13 with va := ⟨0, 0, 7⟩ } ∧
    act (.write 0 0x011400000000000000000000000000000000) v13 = some { v13 with statusFault := 2 } := by
  decide +kernel

/-- V13.13 to V13.17. -/
theorem test_port_bad_accesses :
    act (.write 4 5) v13 = some { v13 with statusFault := 3 } ∧
    act (.read 3) v13 = some { v13 with statusFault := 3, replies := [0] } ∧
    act (.read 9) v13 = some { v13 with statusFault := 3, replies := [0] } ∧
    act (.write 15 0) v13 = some { v13 with statusFault := 3 } ∧
    act (.write 6 0) v13 = some { v13 with statusFault := 3 } := by decide +kernel

/-- V13.18, and the image of `{123, 2, Positive}` read from VA. -/
theorem test_port_reads :
    act (.read 7) v13 = some { v13 with replies := [0] } ∧ act (.read 8) v13 = some { v13 with replies := [1] } ∧
    act (.read 0) v13 = some { v13 with replies := [0x00020000000000000000000000000000007B] } ∧
    act (.read 6) v13f = some { v13f with replies := [1] } := by decide +kernel

/-- V13.19, V13.20. -/
theorem test_port_latched :
    act (.write 0 7) v13f = some v13f ∧ act (.write 3 0x0010) v13f = some v13f ∧
    act (.write 3 0x0000) v13f = some v13f ∧ act (.write 4 0) v13f = some v13f ∧
    act (.read 9) v13f = some { v13f with replies := [0] } := by decide +kernel

/-- V13.21: the reset action clears everything. -/
theorem test_port_reset : act .reset v13f = some State.reset := by decide +kernel

/-- V14: the 18 bytes of -1.23, and the 8 of N = -2. -/
theorem test_byte_order :
    bytesLE 18 (Dec.image ⟨123, 2, 1⟩) = [0x7B, 0, 0, 0, 0, 0, 0, 0, 0, 0, 0, 0, 0, 0, 0, 0, 0x02, 0x01] ∧
    bytesLE 8 (BitVec.ofInt 64 (-2)) = [0xFE, 0xFF, 0xFF, 0xFF, 0xFF, 0xFF, 0xFF, 0xFF] := by decide +kernel

/-- R82 as program P1 uses it: MOV VA, VQ reads the sum and writes it, and LDI -1 sets all 64 bits. -/
theorem test_pseudo :
    (nextOf (runPseudo (.mov .va .vq) { v13 with vq := ⟨579, 2, 0⟩ })).map (·.va) = some ⟨579, 2, 0⟩ ∧
    (nextOf (runPseudo (.ldi (-1)) v13)).map (·.n) = some 0xFFFFFFFFFFFFFFFF ∧
    (nextOf (runPseudo (.ldo .vb) v13)).map (·.vb) = some ⟨1, 0, 0⟩ := by decide +kernel

/-- Right after reset the next step runs the word that `withFetchWord` places: FROMI of 0 leaves every register
zero, an illegal word latches ILLCMD. -/
theorem test_fetch_word :
    nextOf (step (State.reset.withFetchWord 16 0x0006)) = some State.reset ∧
    nextOf (step (State.reset.withFetchWord 16 0x0005)) = some { State.reset with vq := ⟨1, 0, 0⟩ } ∧
    nextOf (step (State.reset.withFetchWord 16 0x0000)) = some { State.reset with statusFault := 1 } := by
  decide +kernel

/-- R6: with nothing to do, nothing happens. -/
theorem test_idle : nextOf (step v13) = some v13 := by decide +kernel

/-! ### Witnesses: each statement's hypotheses are met, clause by clause -/

/-- EncodedWordDecodesBack. -/
theorem witness_encodedWordDecodesBack : Instr.wf (.trunc 255) = true ∧ Instr.wf (.rdown 0) = true ∧
    Instr.wf .canon = true := by decide

/-- DecodedWordIsItsEncoding, WordSpellsCommandByMask. -/
theorem witness_decodedWord : decode 0xFF27 = .ok (.trunc 255) ∧ decode 0x0001 = .ok .canon := ⟨rfl, rfl⟩

/-- DecodingProcedureIsTotal: a word at each end of each clause. -/
theorem witness_decodingProcedure :
    decode 0x0020 = .ok (.rdown 0) ∧ decode 0xFF27 = .ok (.trunc 255) ∧
      decode 0x0001 = .ok .canon ∧ decode 0x0006 = .ok .fromi ∧ decode 0x0010 = .ok .add ∧
      decode 0x0015 = .ok .quorem ∧ decode 0x0018 = .ok .addi ∧ decode 0x001D = .ok .quoremi ∧
      decode 0x0028 = .error (.unlistedOpcode 0x28) ∧ decode 0x001F = .error (.unlistedOpcode 0x1F) ∧
      decode 0x011D = .error (.nonzeroImm8 0x1D 1) := by
  refine ⟨?_, ?_, ?_, ?_, ?_, ?_, ?_, ?_, ?_, ?_, ?_⟩ <;> rfl

/-- SerialisedRecordIsLittleEndian: the last of the sixteen coefficient bytes. -/
theorem witness_serialisedRecord : ∃ k : ℕ, k < 16 ∧ k = 15 := ⟨15, by decide⟩

/-- StepRunsDecodedCommand, with a fault latched and without. -/
theorem witness_stepRunsDecodedCommand :
    ∃ s f : State, s.pending = [.write 3 0x0010] ∧ f.pending = [.write 3 0x0010] ∧ s.Clean ∧ ¬f.Clean ∧
      decode ((0x0010 : Image).setWidth 16) = .ok .add :=
  ⟨{ v13 with pending := [.write 3 0x0010] }, { v13f with pending := [.write 3 0x0010] },
    rfl, rfl, by decide, by decide, rfl⟩

/-- ResetActionClearsEverything, both clauses. -/
theorem witness_resetAction : ∃ s t : State, s.pending = [.reset] ∧ ¬s.Clean ∧ step s = .next t ∧ t.Clean :=
  ⟨{ v13f with pending := [.reset] }, State.reset, rfl, by decide, rfl, by decide⟩

/-- StepKeepsRegisterInvariant, EveryHostActionCompletes: a state that does not come from reset, with the highest
cause latched and an error record with a large exponent. -/
theorem witness_invariant :
    ∃ s t : State, s.Inv ∧ s.statusFault = 3 ∧ s.vr = ⟨1, 200, 6⟩ ∧ core.step s = .next t :=
  ⟨{ v13 with statusFault := 3, vr := ⟨1, 200, 6⟩, pending := [.read 0] }, _, by decide, rfl, rfl, rfl⟩

/-- ReadReturnsRegister: the readable and unreadable indices at the ends of their ranges. -/
theorem witness_readReturnsRegister :
    ∀ idx ∈ [(0 : RegIndex), 1, 2, 3, 4, 5, 6, 7, 8, 9, 15],
      ∃ s : State, s.pending = [.read idx] ∧ s.Clean :=
  fun idx _ => ⟨{ v13 with pending := [.read idx] }, rfl, rfl⟩

/-- OperandWriteIsChecked: exponents 19 and 20 in states 1 and 2, for VA and VB. -/
theorem witness_operandWriteIsChecked :
    ∃ a b : State, a.Clean ∧ b.Clean ∧ a.pending = [.write 0 0x011400000000000000000000000000000000] ∧
      b.pending = [.write 1 0x011300000000000000000000000000000000] :=
  ⟨{ v13 with pending := [.write 0 0x011400000000000000000000000000000000] },
    { v13 with pending := [.write 1 0x011300000000000000000000000000000000] }, by decide, by decide, rfl, rfl⟩

/-- IntegerWriteIsStored: the most negative integer. -/
theorem witness_integerWriteIsStored :
    ∃ s : State, s.Clean ∧ s.pending = [.write 2 ((0x8000000000000000 : IntWord).setWidth 144)] :=
  ⟨{ v13 with pending := [.write 2 ((0x8000000000000000 : IntWord).setWidth 144)] }, by decide, rfl⟩

/-- BadAccessLatchesAccess: writes at indices 4, 8, 9 and 15, reads at 3, 9 and 15. -/
theorem witness_badAccess :
    (∀ idx ∈ [(4 : RegIndex), 8, 9, 15], 4 ≤ idx.toNat ∧ ∃ s : State, s.Clean ∧ s.pending = [.write idx 0]) ∧
      ∀ idx ∈ [(3 : RegIndex), 9, 15],
        (idx = 3 ∨ 9 ≤ idx.toNat) ∧ ∃ s : State, s.Clean ∧ s.pending = [.read idx] :=
  ⟨fun idx h => ⟨by revert idx; decide, { v13 with pending := [.write idx 0] }, rfl, rfl⟩,
    fun idx h => ⟨by revert idx; decide, { v13 with pending := [.read idx] }, rfl, rfl⟩⟩

/-- IllegalWordLatchesIllcmd: a word for each of its cases, at the ends of the ranges. -/
theorem witness_illegalWord :
    ∀ w ∈ [(0x0000 : CmdWord), 0x0007, 0x000F, 0x0016, 0x0017, 0x001E, 0x001F, 0x0028, 0x00FF, 0x0101, 0x011D,
        0xFFFF],
      (w.toNat % 256 = 0x00 ∨ (0x07 ≤ w.toNat % 256 ∧ w.toNat % 256 ≤ 0x0F) ∨ w.toNat % 256 = 0x16 ∨
        w.toNat % 256 = 0x17 ∨ w.toNat % 256 = 0x1E ∨ w.toNat % 256 = 0x1F ∨ 0x28 ≤ w.toNat % 256 ∨
        (w.toNat % 256 < 0x20 ∧ w.toNat / 256 ≠ 0) ∨ w = 0x0000 ∨ w = 0xFFFF) ∧
      ∃ s : State, s.Clean ∧ s.pending = [.write 3 (w.setWidth 144)] := by
  intro w h
  refine ⟨?_, { v13 with pending := [.write 3 (w.setWidth 144)] }, rfl, rfl⟩
  simp only [List.mem_cons, List.not_mem_nil, or_false] at h
  rcases h with rfl | rfl | rfl | rfl | rfl | rfl | rfl | rfl | rfl | rfl | rfl | rfl <;> decide

/-- LatchedFaultRefusesWrites, FirstFaultWinsUntilReset: each cause, with a write, a read and the reset action
next. -/
theorem witness_latched :
    ∀ c ∈ [(1 : FaultCode), 2, 3], ∀ a ∈ [HostAction.write 0 7, .read 9, .reset],
      ∃ s t : State, ¬s.Clean ∧ s.pending = [a] ∧ step s = .next t := by
  intro c hc a ha
  refine ⟨{ v13 with statusFault := c, pending := [a] }, ?_⟩
  simp only [List.mem_cons, List.not_mem_nil, or_false] at hc ha
  rcases hc with rfl | rfl | rfl <;> rcases ha with rfl | rfl | rfl <;> exact ⟨_, by decide, rfl, rfl⟩

/-- FaultingActionHasNoOtherEffect. -/
theorem witness_faultingAction : ∃ s t : State, s.Clean ∧ step s = .next t ∧ ¬t.Clean :=
  ⟨{ v13 with pending := [.write 3 0x0110] }, { v13 with statusFault := 1 }, by decide,
    next_of_some (by decide +kernel), by decide⟩

/-- PseudoInstructionsExpand. -/
theorem witness_pseudo : ∃ s : State, s.Inv ∧ s.Clean ∧ s.vq = ⟨579, 2, 0⟩ ∧ Instr.wf (.rbank 255) = true :=
  ⟨{ v13 with vq := ⟨579, 2, 0⟩ }, by decide, by decide, rfl, by decide⟩

/-- CommandsPreserveOperands, OnlyQuotientRemainderWritesVR, CommandsReadTheirOperandsOnly, MarkersHaveTheirSources:
each command answers a next state from one ready state. -/
theorem witness_everyCommandAnswers :
    ∀ i ∈ [Instr.canon, .abs, .neg, .sqrt, .powi, .fromi, .add, .sub, .mul, .div, .mod, .quorem, .addi, .subi,
      .muli, .divi, .modi, .quoremi, .rdown 1, .rup 1, .rtz 1, .rafz 1, .rhtz 1, .rhafz 1, .rbank 1, .trunc 1],
      v13.ReadyAB ∧ (nextOf (exec i v13)).isSome = true := by decide +kernel

/-- MarkersHaveTheirSources: QUOREM and QUOREMI deliver a finite VR, and each of their two markers to both results. -/
theorem witness_markersOfBothResults :
    results .quorem (loaded ⟨7, 0, 0⟩ ⟨2, 0, 0⟩ 0) = some (⟨35000000000000000000, 19, 0⟩, ⟨0, 19, 0⟩) ∧
      results .quoremi (loaded ⟨1, 0, 0⟩ ⟨0, 0, 0⟩ 0) = some (⟨0, 0, 4⟩, ⟨0, 0, 4⟩) ∧
      results .quorem (loaded ⟨1, 0, 0⟩ ⟨18446744073709551617, 0, 0⟩ 0) = some (⟨0, 0, 3⟩, ⟨0, 0, 3⟩) ∧
      (loaded ⟨1, 0, 0⟩ ⟨18446744073709551617, 0, 0⟩ 0).ReadyAB := by decide +kernel

/-- MarkersHaveTheirSources: each of the three markers is delivered. -/
theorem witness_markers :
    vqOf .sqrt ⟨9, 0, 1⟩ ⟨0, 0, 0⟩ 0 = some ⟨0, 0, 5⟩ ∧ vqOf .powi ⟨0, 0, 0⟩ ⟨0, 0, 0⟩ (-1) = some ⟨0, 0, 4⟩ ∧
      vqOf .addi ⟨340282366920938463463374607431768211455, 0, 0⟩ ⟨0, 0, 0⟩ 1 = some ⟨0, 0, 3⟩ := by decide +kernel

/-- LatchedFaultStopsCommands. -/
theorem witness_latchedFaultStopsCommands : ∃ s : State, ¬s.Clean := ⟨v13f, by decide⟩

/-- ResultDependsOnOperandsOnly: two states that differ in VQ and VR. -/
theorem witness_resultDependsOnOperandsOnly :
    ∃ s s' t t' : State, s.Clean ∧ s'.Clean ∧ s.va = s'.va ∧ s.vb = s'.vb ∧ s.n = s'.n ∧ s.vr ≠ s'.vr ∧
      exec .quorem s = .next t ∧ exec .quorem s' = .next t' :=
  ⟨v13, { v13 with vr := ⟨1, 0, 0⟩ }, _, _, by decide, by decide, rfl, rfl, rfl, by decide, rfl, rfl⟩

/-- ErrorOperandsAreAbsorbed, and the error clauses of AddDeliversAlignedSum, MulDeliversExactProduct and
DivisionChecksInOrder: VA an error, then only VB, with a reserved code and a large exponent. -/
theorem witness_errorOperands :
    ∃ s s' : State, s.Ready ∧ s.va.isError = true ∧ s'.Ready ∧ s'.va.isError = false ∧ s'.vb.isError = true :=
  ⟨loaded ⟨7, 200, 255⟩ ⟨0, 0, 2⟩ 0, loaded ⟨7, 3, 0⟩ ⟨1, 200, 6⟩ 0, by decide, by decide, by decide, by decide,
    by decide⟩

/-- Equal quantities of one sign, by cross multiplication. -/
theorem val_eq_of_cross {v w : Dec} (hs : v.state = w.state)
    (h : v.coef.toNat * 10 ^ w.exp.toNat = w.coef.toNat * 10 ^ v.exp.toNat) : v.val = w.val := by
  have hq : (v.coef.toNat : ℚ) / 10 ^ v.exp.toNat = w.coef.toNat / 10 ^ w.exp.toNat := by
    rw [div_eq_div_iff (by positivity) (by positivity)]
    exact_mod_cast h
  simp only [Dec.val, hs, mul_div_assoc, hq]

/-- A nonzero coefficient is a nonzero quantity. -/
theorem val_ne_zero {v : Dec} (h : v.coef.toNat ≠ 0) : v.val ≠ 0 := by
  have hc : (v.coef.toNat : ℚ) ≠ 0 := by exact_mod_cast h
  unfold Dec.val
  split <;> simpa using hc

/-- CanonStripsTrailingZeros, CanonicalFormIsUnique: two records of one nonzero quantity. -/
theorem witness_canon :
    ∃ s s' t t' : State, s.ReadyA ∧ s'.ReadyA ∧ s.va.val ≠ 0 ∧ s'.va.val = s.va.val ∧ s.va ≠ s'.va ∧
      exec .canon s = .next t ∧ exec .canon s' = .next t' :=
  ⟨loaded ⟨12, 1, 1⟩ ⟨0, 0, 0⟩ 0, loaded ⟨1200, 3, 1⟩ ⟨0, 0, 0⟩ 0, _, _, by decide, by decide,
    val_ne_zero (by decide), val_eq_of_cross (by decide) (by decide), by decide, rfl, rfl⟩

/-- AddDeliversAlignedSum: operands for the fast attempt, for the retry and for overflow. -/
theorem witness_add :
    (loaded ⟨1, 0, 0⟩ ⟨5, 3, 0⟩ 0).ReadyAB ∧ AddFits ⟨1, 0, 0⟩ ⟨5, 3, 0⟩ ∧
      (loaded ⟨30000000000000000000000000000000000000, 0, 0⟩ ⟨5000, 4, 0⟩ 0).ReadyAB ∧
      ¬AddFits ⟨30000000000000000000000000000000000000, 0, 0⟩ ⟨5000, 4, 0⟩ ∧
      AddFits (Dec.canonical ⟨30000000000000000000000000000000000000, 0, 0⟩) (Dec.canonical ⟨5000, 4, 0⟩) ∧
      ¬AddFits (Dec.canonical ⟨340282366920938463463374607431768211455, 0, 0⟩) (Dec.canonical ⟨1, 0, 0⟩) := by
  decide +kernel

/-- SubIsAddOfToggledOperand: its three clauses. -/
theorem witness_sub :
    ∃ s s' s'' : State, s.Ready ∧ s.va.isError = true ∧ s'.Ready ∧ s'.va.isError = false ∧ s'.vb.isError = true ∧
      s''.Ready ∧ s''.va.isError = false ∧ s''.vb.isError = false :=
  ⟨loaded ⟨0, 0, 4⟩ ⟨9, 1, 2⟩ 0, loaded ⟨1, 0, 0⟩ ⟨9, 1, 2⟩ 0, loaded ⟨1, 0, 0⟩ ⟨0, 19, 1⟩ 0, by decide, by decide,
    by decide, by decide, by decide, by decide, by decide, by decide⟩

/-- AdditionIsExactAndCommutative, MultiplicationIsExactAndCommutative: finite operands whose sum, difference and
product are finite (V2.2, V3.2). -/
theorem witness_exact :
    (loaded ⟨1, 0, 0⟩ ⟨5, 3, 0⟩ 0).ReadyAB ∧ vqOf .add ⟨1, 0, 0⟩ ⟨5, 3, 0⟩ 0 = some ⟨1005, 3, 0⟩ ∧
      vqOf .sub ⟨1, 0, 0⟩ ⟨5, 3, 0⟩ 0 = some ⟨995, 3, 0⟩ ∧ vqOf .mul ⟨1, 0, 0⟩ ⟨5, 3, 0⟩ 0 = some ⟨5, 3, 0⟩ := by
  decide +kernel

/-- MulDeliversExactProduct: a zero operand, and operands for each of the three phases (V4.2, V4.6, V4.12). -/
theorem witness_mul :
    (loaded ⟨0, 5, 1⟩ ⟨3, 0, 0⟩ 0).ReadyAB ∧ MulFits ⟨1, 19, 0⟩ ⟨1, 0, 0⟩ ∧ ¬MulFits ⟨10, 10, 0⟩ ⟨10, 10, 0⟩ ∧
      MulFits (Dec.canonical ⟨10, 10, 0⟩) (Dec.canonical ⟨10, 10, 0⟩) ∧
      ¬MulFits (Dec.canonical ⟨1, 19, 0⟩) (Dec.canonical ⟨1, 1, 0⟩) ∧
      (loaded ⟨10, 10, 0⟩ ⟨10, 10, 0⟩ 0).ReadyAB := by
  decide +kernel

/-- DivisionChecksInOrder: zero divisor and zero dividend, in VB and in N. -/
theorem witness_divisionChecks :
    ∃ s s' : State, s.ReadyA ∧ s.vb.finite = true ∧ s.vb.coef = 0 ∧ s.va.coef = 0 ∧ s.n = 0 ∧
      s'.ReadyA ∧ s'.vb.finite = true ∧ s'.vb.coef ≠ 0 ∧ s'.va.coef = 0 ∧ s'.n ≠ 0 :=
  ⟨loaded ⟨0, 0, 0⟩ ⟨0, 3, 1⟩ 0, loaded ⟨0, 4, 1⟩ ⟨7, 0, 0⟩ 7, by decide⟩

/-- DivDeliversScaledQuotient, DivIsTruncatedTrueQuotient: the three phases (V5.1, V5.18, V5.7), the divisor at the
ends of its 64 bits. -/
theorem witness_div :
    (loaded ⟨34, 0, 0⟩ ⟨10000000000000000000, 19, 0⟩ 0).ReadyAB ∧
      DivFits ⟨1, 0, 0⟩ ⟨18446744073709551615, 0, 0⟩ ∧ ¬DivFits ⟨34, 0, 0⟩ ⟨10000000000000000000, 19, 0⟩ ∧
      DivFits (Dec.canonical ⟨34, 0, 0⟩) (Dec.canonical ⟨10000000000000000000, 19, 0⟩) ∧
      ¬DivFits (Dec.canonical ⟨1, 0, 0⟩) (Dec.canonical ⟨18446744073709551616, 0, 0⟩) := by
  decide +kernel

/-- DivDependsOnQuantityOnly: two spellings of 1 over 3. -/
theorem witness_divDependsOnQuantity :
    ∃ s s' t t' : State, s.ReadyAB ∧ s'.ReadyAB ∧ s.va.val = s'.va.val ∧ s.vb.val = s'.vb.val ∧ s.va ≠ s'.va ∧
      exec .div s = .next t ∧ exec .div s' = .next t' ∧ t.vq.isError = false ∧ t'.vq.isError = false :=
  ⟨loaded ⟨1, 0, 0⟩ ⟨3, 0, 0⟩ 0, loaded ⟨10, 1, 0⟩ ⟨300, 2, 0⟩ 0,
    { loaded ⟨1, 0, 0⟩ ⟨3, 0, 0⟩ 0 with vq := ⟨3333333333333333333, 19, 0⟩ },
    { loaded ⟨10, 1, 0⟩ ⟨300, 2, 0⟩ 0 with vq := ⟨3333333333333333333, 19, 0⟩ }, by decide, by decide,
    val_eq_of_cross (by decide) (by decide), val_eq_of_cross (by decide) (by decide), by decide, next_of_some (by decide +kernel),
    next_of_some (by decide +kernel), by decide, by decide⟩

/-- QuoRemDeliversPair: operands for the three phases. -/
theorem witness_quoRem :
    (loaded ⟨10, 0, 0⟩ ⟨3, 19, 0⟩ 0).ReadyAB ∧ QuoRemFits ⟨10, 0, 0⟩ ⟨3, 19, 0⟩ ∧
      ¬QuoRemFits ⟨1, 0, 0⟩ ⟨100000000000000000000, 19, 0⟩ ∧
      QuoRemFits (Dec.canonical ⟨1, 0, 0⟩) (Dec.canonical ⟨100000000000000000000, 19, 0⟩) ∧
      ¬QuoRemFits (Dec.canonical ⟨40000000000000000000, 0, 0⟩) (Dec.canonical ⟨7, 0, 0⟩) := by
  decide +kernel

/-- ModIsRemainderOfQuoRem, QuotientTimesDivisorPlusRemainder, ReconstructionNeverOverflows: finite operands with a
nonzero divisor and a finite pair (V6.3). -/
theorem witness_quotientTimesDivisor :
    ∃ s t : State, s.Ready ∧ s.ReadyAB ∧ s.vb.coef ≠ 0 ∧ s.va.coef ≠ 0 ∧ exec .quorem s = .next t ∧
      t.vq.isError = false :=
  ⟨loaded ⟨2, 0, 0⟩ ⟨15, 1, 0⟩ 0,
    { loaded ⟨2, 0, 0⟩ ⟨15, 1, 0⟩ 0 with vq := ⟨1333333333333333333, 18, 0⟩, vr := ⟨5, 19, 0⟩ },
    by decide, by decide, by decide, by decide, next_of_some (by decide +kernel), by decide⟩

/-- DivIsQuotientForIntegerDivisor. -/
theorem witness_integerDivisor : ∃ s : State, s.Ready ∧ s.vb.exp = 0 ∧ s.vb.coef = 3 :=
  ⟨loaded ⟨1, 0, 0⟩ ⟨3, 0, 0⟩ 0, by decide, by decide, by decide⟩

/-- AbsClearsTheSign, NegTogglesTheSign, SqrtIsFloorRoot, PowiFollowsTheRecursion: operands of each state, zero, one,
negative, erroneous and ordinary. -/
theorem witness_unary :
    ∀ v ∈ [(⟨2, 0, 0⟩ : Dec), ⟨9, 0, 1⟩, ⟨0, 7, 1⟩, ⟨100, 2, 0⟩, ⟨1, 19, 0⟩, ⟨7, 200, 2⟩],
      (loaded v ⟨0, 0, 0⟩ 0).Clean ∧ (loaded v ⟨0, 0, 0⟩ 0).va.wf = true := by decide

/-- PowiFollowsTheRecursion: the exponents at the ends of its range and of its cases. -/
theorem witness_powiExponents :
    ∀ n ∈ [(-(2 ^ 63) : ℤ), -(2 ^ 63) + 1, -1, 0, 1, 2, 3, 2 ^ 63 - 1], -(2 ^ 63) ≤ n ∧ n ≤ 2 ^ 63 - 1 := by
  decide +kernel

/-- SqrtDependsOnQuantityOnly (V8.1, V8.14). -/
theorem witness_sqrtDependsOnQuantity :
    ∃ s s' t t' : State, s.ReadyA ∧ s'.ReadyA ∧ s.va.val = s'.va.val ∧ s.va ≠ s'.va ∧
      exec .sqrt s = .next t ∧ exec .sqrt s' = .next t' :=
  ⟨loaded ⟨2, 0, 0⟩ ⟨0, 0, 0⟩ 0, loaded ⟨200, 2, 0⟩ ⟨0, 0, 0⟩ 0, _, _, by decide, by decide,
    val_eq_of_cross (by decide) (by decide), by decide, rfl, rfl⟩

/-- FinitePowersAreExact: a finite power with an exponent of each sign (V9.2, V9.15). -/
theorem witness_finitePowers :
    ∃ s s' : State, s.ReadyA ∧ 0 ≤ sint s.n ∧ s'.ReadyA ∧ sint s'.n < 0 ∧
      results .powi s = some (⟨3375, 3, 0⟩, ⟨77, 7, 0⟩) ∧
      results .powi s' = some (⟨80000000000000000000, 19, 0⟩, ⟨77, 7, 0⟩) :=
  ⟨loaded ⟨15, 1, 0⟩ ⟨0, 0, 0⟩ 3, loaded ⟨5, 1, 0⟩ ⟨0, 0, 0⟩ (-3), by decide +kernel⟩

/-- RoundingIncrementsByItsMode, RoundedQuantityIsAsNamed: the lowest precision and the highest with digits to
drop. -/
theorem witness_rounding :
    ∃ s : State, s.ReadyA ∧ 0 < s.va.exp.toNat ∧ 18 < s.va.exp.toNat ∧ s.va.state = 1 :=
  ⟨loaded ⟨25, 19, 1⟩ ⟨0, 0, 0⟩ 0, by decide⟩

/-- RoundingIncrementsByItsMode: a tie at an even and at an odd quotient, one below and one above a tie (V10.1, V10.2,
V10.5, V10.6). -/
theorem witness_roundingCases :
    2125 % 10 = 10 / 2 ∧ 2125 / 10 % 2 = 0 ∧ 2135 % 10 = 10 / 2 ∧ 2135 / 10 % 2 = 1 ∧ 10 / 2 < 2126 % 10 ∧
      2124 % 10 < 10 / 2 := by decide

/-- RoundingIsIdempotent: as many places as the value has, and the largest precision. -/
theorem witness_roundingIsIdempotent :
    ∃ s : State, s.ReadyA ∧ s.va.exp.toNat ≤ 2 ∧ s.va.exp.toNat ≤ 255 ∧ s.va.exp.toNat = 2 :=
  ⟨v13, by decide⟩

/-- FromiConvertsExactly: the most negative integer, -1, 0 and the largest one. -/
theorem witness_fromi :
    ∀ n ∈ [(0x8000000000000000 : IntWord), -1, 0, 0x7FFFFFFFFFFFFFFF], (loaded ⟨0, 99, 0⟩ ⟨0, 0, 0⟩ n).Clean :=
  fun _ _ => rfl

/-- IntegerFormsEqualTheirTwins: a finite operand and an error one, with an unusable record in VB. -/
theorem witness_integerForms :
    ∃ s s' : State, s.Clean ∧ s.va.wf = true ∧ s.vb = ⟨9, 9, 2⟩ ∧ s'.Clean ∧ s'.va.wf = true ∧ s'.va.isError = true :=
  ⟨loaded ⟨15, 1, 0⟩ ⟨9, 9, 2⟩ 0x8000000000000000, loaded ⟨7, 3, 2⟩ ⟨9, 9, 2⟩ 5, by decide⟩

end Sys2Proof.Tests
end

/-! ## The state of the block (spec/10_state.md)

The register invariant over one step (R38, R32), what a command's result depends on (R36), and the state after
reset (R37). -/

namespace Sys2Proof.Machine

/-! ### Every action keeps the register invariant -/

/-- A cause of a fault is one of the codes 1 to 3 (R227). -/
theorem causeCode_toNat_le (c : Cause) : (causeCode c).toNat ≤ 3 := by
  cases c <;> decide

theorem State.reset_inv : State.reset.Inv := by decide

theorem exec_keeps_inv {i : Instr} {s t : State} (hs : s.Inv) (h : exec i s = .next t) : t.Inv := by
  rcases exec_next h with ⟨-, rfl⟩ | ⟨-, v, w, rfl, hv, hw⟩
  · exact hs
  · obtain ⟨hva, hvb, -, hvr, hf⟩ := hs
    have hw' : w.wf = true := by
      rcases hw with rfl | hw
      · exact hvr
      · exact hw
    exact ⟨hva, hvb, hv, hw', hf⟩

theorem hostRead_keeps_inv (idx : RegIndex) {s : State} (hs : s.Inv) : (hostRead idx s).Inv := by
  obtain ⟨hva, hvb, hvq, hvr, hf⟩ := hs
  obtain ⟨d, f, e, h⟩ := hostRead_spec idx s
  have hf' : f.toNat ≤ 3 := by
    rcases h with rfl | ⟨-, rfl⟩
    · exact hf
    · exact causeCode_toNat_le _
  rw [e]
  exact ⟨hva, hvb, hvq, hvr, hf'⟩

/-- The operand check of R55 is what keeps the invariant when the host loads VA or VB. -/
theorem hostWrite_keeps_inv {idx : RegIndex} {data : Image} {s t : State} (hs : s.Inv)
    (h : hostWrite idx data s = .next t) : t.Inv := by
  have ⟨hva, hvb, hvq, hvr, hf⟩ := hs
  rcases hostWrite_cases idx data s with
    ⟨-, e⟩ | ⟨-, hd, e⟩ | ⟨-, hd, e⟩ | ⟨-, e⟩ | ⟨-, c, e⟩ | ⟨-, i, -, e⟩ <;> rw [e] at h
  case inr.inr.inr.inr.inr => exact exec_keeps_inv hs h
  all_goals cases h
  · exact hs
  · exact ⟨hd, hvb, hvq, hvr, hf⟩
  · exact ⟨hva, hd, hvq, hvr, hf⟩
  · exact ⟨hva, hvb, hvq, hvr, hf⟩
  · exact ⟨hva, hvb, hvq, hvr, causeCode_toNat_le c⟩

theorem perform_keeps_inv {a : HostAction} {s t : State} (hs : s.Inv) (h : perform a s = .next t) : t.Inv := by
  cases a with
  | read idx =>
    cases h
    exact hostRead_keeps_inv idx hs
  | write idx data => exact hostWrite_keeps_inv hs h
  | reset =>
    cases h
    exact State.reset_inv

theorem step_keeps_inv {s t : State} (hs : s.Inv) (h : step s = .next t) : t.Inv := by
  cases hp : s.pending with
  | nil =>
    rw [step, hp] at h
    cases h
    exact hs
  | cons a rest =>
    rw [step_of_pending hp] at h
    exact perform_keeps_inv (s := { s with pending := rest }) hs h

/-- Settles O13: every host action keeps the invariant, by the case analysis of `hostRead`, `hostWrite` and
`exec` in their inversion lemmas. -/
theorem stepKeepsRegisterInvariant : Obligations.StepKeepsRegisterInvariant :=
  fun _ _ => step_keeps_inv

/-! ### What a command's result depends on -/

/-- With no fault latched, a frame that answers a next state answers the command's effect (R110). -/
theorem commandFrame_next_of_clean {s after t : State} {ok : Bool} (hs : s.Clean)
    (h : commandFrame s ok after = .next t) : t = after := by
  rcases commandFrame_next h with ⟨hl, -⟩ | ⟨-, -, e⟩
  · exact absurd hs hl
  · exact e

/-- On two states with the same operands a command is the same frame around the same VQ. VR is the same result
in both when QUOREM or QUOREMI writes it, and is each state's own VR under any other command (R36, R110). -/
theorem exec_of_same_operands (i : Instr) {s s' : State} (hva : s.va = s'.va) (hvb : s.vb = s'.vb)
    (hn : s.n = s'.n) :
    ∃ ok v w w', exec i s = commandFrame s ok { s with vq := v, vr := w } ∧
      exec i s' = commandFrame s' ok { s' with vq := v, vr := w' } ∧
      if i = .quorem ∨ i = .quoremi then w = w' else w = s.vr ∧ w' = s'.vr := by
  obtain ⟨va, vb, n, vq, vr, f, pending, replies⟩ := s
  obtain ⟨va', vb', n', vq', vr', f', pending', replies'⟩ := s'
  cases hva
  cases hvb
  cases hn
  cases i with
  | quorem | quoremi => exact ⟨_, _, _, _, rfl, rfl, rfl⟩
  | canon | abs | neg | sqrt | powi | fromi => exact ⟨_, _, vr, vr', rfl, rfl, rfl, rfl⟩
  | add | sub | mul | div | mod | addi | subi | muli | divi | modi => exact ⟨_, _, vr, vr', rfl, rfl, rfl, rfl⟩
  | rdown p | rup p | rtz p | rafz p | rhtz p | rhafz p | rbank p | trunc p =>
    exact ⟨_, _, vr, vr', rfl, rfl, rfl, rfl⟩

/-- Settles O27: both runs are one frame with the same results, and the frame's effect writes VQ and VR alone. -/
theorem resultDependsOnOperandsOnly : Obligations.ResultDependsOnOperandsOnly := by
  intro i s s' t t' hs hs' hva hvb hn h h'
  obtain ⟨ok, v, w, w', e, e', hw⟩ := exec_of_same_operands i hva hvb hn
  rw [e] at h
  rw [e'] at h'
  obtain rfl := commandFrame_next_of_clean hs h
  obtain rfl := commandFrame_next_of_clean hs' h'
  exact ⟨rfl, rfl, fun hi => by rwa [if_pos hi] at hw⟩

/-! ### The state after reset -/

/-- The image of the constant `Zero` has every bit zero (R27, R35, R76). -/
theorem zero_image : Dec.zero.image = 0 := by decide

/-- Settles O10: each value register holds `Zero` after reset, and the other fields are their zeros. -/
theorem resetStateIsAllZero : Obligations.ResetStateIsAllZero :=
  ⟨zero_image, zero_image, zero_image, zero_image, State.reset_va, State.reset_n, State.reset_statusFault,
    State.reset_pending, State.reset_replies⟩

end Sys2Proof.Machine

/-! ## The host port (spec/20_memory.md)

What a read returns and leaves (R53), the operand check (R55) and the bad accesses (R56). -/

namespace Sys2Proof.Machine

/-! ### Reads -/

/-- The image of the constant `One` is the number one (R27, R35, R76). -/
theorem one_image : Dec.one.image = 1 := by decide

/-- STATUS reads as its three FAULT bits, zero-extended to the port (R78). -/
theorem State.statusImage_setWidth (s : State) : s.statusImage.setWidth 144 = s.statusFault.setWidth 144 :=
  BitVec.setWidth_setWidth (by decide)

/-- The indices that may not be read are CMD and the undefined ones (R51, R56). -/
theorem State.readable_eq_none_iff (s : State) (idx : RegIndex) :
    s.readable idx = none ↔ idx = 3 ∨ 9 ≤ idx.toNat := by
  have cmd : idx = 3 ↔ idx.toNat = 3 := BitVec.toNat_inj.symm
  rw [cmd]
  unfold State.readable
  split
  case h_9 =>
    simp only [imp_false, true_iff] at *
    omega
  all_goals
    simp only [reduceCtorEq, false_iff]
    omega

/-- The value each index returns, an unreadable one returning 0 (R53). -/
theorem State.readable_getD (s : State) (idx : RegIndex) :
    (s.readable idx).getD 0 =
      if idx = 0 then s.va.image else if idx = 1 then s.vb.image
      else if idx = 2 then s.n.setWidth 144 else if idx = 4 then s.vq.image
      else if idx = 5 then s.vr.image else if idx = 6 then s.statusFault.setWidth 144
      else if idx = 7 then 0 else if idx = 8 then 1 else 0 := by
  split_ifs with va vb n vq vr status zero one
  · rw [va]; rfl
  · rw [vb]; rfl
  · rw [n]; rfl
  · rw [vq]; rfl
  · rw [vr]; rfl
  · rw [status]; exact s.statusImage_setWidth
  · rw [zero]; exact zero_image
  · rw [one]; exact one_image
  · have unreadable : s.readable idx = none := (s.readable_eq_none_iff idx).2 (by bv_omega)
    rw [unreadable]
    rfl

/-- A read hands back the register's value, or 0 and Fault(ACCESS) with the first fault winning (R53, R228). -/
theorem hostRead_eq (idx : RegIndex) (s : State) :
    hostRead idx s = { s with
      replies := s.replies ++ [(s.readable idx).getD 0]
      statusFault := if s.readable idx = none ∧ s.Clean then causeCode .access else s.statusFault } := by
  unfold hostRead
  cases s.readable idx with
  | some d => rfl
  | none =>
    by_cases clean : s.Clean
    · rw [if_pos ⟨rfl, clean⟩]
      exact State.raiseFault_of_clear .access (s.reply 0) clean
    · rw [if_neg (not_and_of_not_right _ clean)]
      exact State.raiseFault_of_latched .access (s.reply 0) clean

/-- Settles O15: the read's value is `State.readable_getD`, and the indices that raise ACCESS are those with no
value to read. -/
theorem readReturnsRegister : Obligations.ReadReturnsRegister := by
  intro s rest idx h
  rw [step_of_pending h, perform, hostRead_eq, State.readable_getD]
  simp only [State.readable_eq_none_iff]
  rfl

/-! ### Writes to the operand registers -/

/-- A clean block passes the latch test of a write (R229). -/
theorem State.not_faulted_of_clean {s : State} (hs : s.Clean) : ¬s.faulted = true :=
  fun h => (State.faulted_eq_true s).1 h hs

/-- A record fails the operand check exactly when it is finite with an exponent above EXP_MAX (R55). -/
theorem Dec.accepted_eq_false_iff (v : Dec) : v.accepted = false ↔ v.state.toNat < 2 ∧ 19 < v.exp.toNat := by
  simp [Dec.accepted, Dec.wf]

/-- With no fault latched, the operand check stores the record or latches OPERAND, and does nothing else (R55). -/
theorem writeOperand_of_clean (set : State → Dec → State) (data : Image) {s : State} (hs : s.Clean) :
    writeOperand set data s =
      if (Dec.ofImage data).state.toNat < 2 ∧ 19 < (Dec.ofImage data).exp.toNat
      then { s with statusFault := causeCode .operand } else set s (Dec.ofImage data) := by
  unfold writeOperand
  rw [State.raiseFault_of_clear _ _ hs]
  simp only [← Dec.accepted_eq_false_iff]
  cases (Dec.ofImage data).accepted <;> rfl

/-- With no fault latched, a write to VA is examined (R54). -/
theorem hostWrite_va_of_clean (data : Image) {s : State} (hs : s.Clean) :
    hostWrite 0 data s = .next (writeOperand State.setVA data s) :=
  if_neg (State.not_faulted_of_clean hs)

/-- With no fault latched, a write to VB is examined (R54). -/
theorem hostWrite_vb_of_clean (data : Image) {s : State} (hs : s.Clean) :
    hostWrite 1 data s = .next (writeOperand State.setVB data s) :=
  if_neg (State.not_faulted_of_clean hs)

/-- Settles O16: the check of `writeOperand` is the statement's, for each of the two registers. -/
theorem operandWriteIsChecked : Obligations.OperandWriteIsChecked := by
  intro s rest data clean v bad
  have hs : State.Clean { s with pending := rest } := clean
  constructor
  · intro h
    rw [step_of_pending h, perform, hostWrite_va_of_clean data hs, writeOperand_of_clean State.setVA data hs]
    rfl
  · intro h
    rw [step_of_pending h, perform, hostWrite_vb_of_clean data hs, writeOperand_of_clean State.setVB data hs]
    rfl

/-! ### Bad accesses -/

/-- With no fault latched, a write to an index that takes none latches ACCESS and does nothing else (R56). -/
theorem hostWrite_of_not_writable {idx : RegIndex} (data : Image) {s : State} (hs : s.Clean)
    (hidx : 4 ≤ idx.toNat) : hostWrite idx data s = .next { s with statusFault := causeCode .access } := by
  unfold hostWrite
  rw [if_neg (State.not_faulted_of_clean hs), State.raiseFault_of_clear _ _ hs]
  split
  case h_5 => rfl
  all_goals omega

/-- With no fault latched, a read of an unreadable index returns 0 and latches ACCESS (R53, R56). -/
theorem hostRead_of_unreadable {idx : RegIndex} {s : State} (hs : s.Clean) (h : s.readable idx = none) :
    hostRead idx s = { s with replies := s.replies ++ [0], statusFault := causeCode .access } := by
  rw [hostRead_eq, if_pos ⟨h, hs⟩, h]
  rfl

/-- Settles O18: writes at 4 and above fall to the last branch of `hostWrite`, and the reads named are those of
an unreadable index. -/
theorem badAccessLatchesAccess : Obligations.BadAccessLatchesAccess := by
  intro s rest idx clean
  have hs : State.Clean { s with pending := rest } := clean
  constructor
  · intro data h hidx
    rw [step_of_pending h, perform, hostWrite_of_not_writable data hs hidx]
    rfl
  · intro h hidx
    rw [step_of_pending h, perform, hostRead_of_unreadable hs ((State.readable_eq_none_iff _ idx).2 hidx)]
    rfl

end Sys2Proof.Machine

/-! ## The encodings (spec/30_encoding.md)

Which words spell a command and which command they spell (R73 to R75, R80), the image of a value register (R76),
the integer in N (R77), an illegal word written to CMD (R74) and the pseudo-instructions (R82). -/

namespace Sys2Proof

/-! ### The two fields of a command word -/

/-- The opcode field is the word's low byte (R70). -/
theorem opcodeOf_eq (w : CmdWord) : opcodeOf w = w.toNat % 256 := by
  simp [opcodeOf, BitVec.extractLsb'_toNat]

/-- The imm8 field is the word's high byte (R70). -/
theorem imm8Of_eq (w : CmdWord) : imm8Of w = w.toNat / 256 := by
  have h := w.isLt
  simp only [imm8Of, BitVec.extractLsb'_toNat, Nat.shiftRight_eq_div_pow]
  omega

theorem imm8Of_lt (w : CmdWord) : imm8Of w < 256 :=
  (w.extractLsb' 8 8).isLt

/-- A word is put together from its two fields (R70). -/
theorem ofNat_opcodeOf_imm8Of (w : CmdWord) : BitVec.ofNat 16 (opcodeOf w + 256 * imm8Of w) = w := by
  rw [opcodeOf_eq, imm8Of_eq, Nat.mod_add_div, BitVec.ofNat_toNat, BitVec.setWidth_eq]

theorem opcode_lt (i : Instr) : opcode i < 256 := by
  cases i <;> simp [opcode]

/-- The word a command assembles to has that command's opcode in its low byte (R80). -/
theorem opcodeOf_encode (i : Instr) : opcodeOf (encode i) = opcode i := by
  have h := opcode_lt i
  rw [opcodeOf_eq, encode, BitVec.toNat_ofNat]
  omega

/-- A command is well-formed exactly when its precision, 0 where it has none, fits a byte (R72). -/
theorem Instr.wf_iff (i : Instr) : i.wf = true ↔ i.precision.getD 0 < 256 := by
  cases h : i.precision <;> simp [Instr.wf, h, Config.precBits]

/-- The word a well-formed command assembles to has the precision in its high byte (R72, R80). -/
theorem imm8Of_encode {i : Instr} (h : i.wf = true) : imm8Of (encode i) = i.precision.getD 0 := by
  have hop := opcode_lt i
  have hp := (Instr.wf_iff i).1 h
  rw [imm8Of_eq, encode, BitVec.toNat_ofNat]
  omega

/-! ### The two opcode tables of R73 -/

/-- The rounding opcodes are those of the commands that carry a precision, which they take from imm8 (R72, R73). -/
theorem roundingInstr_eq_some_iff (op p : Nat) (i : Instr) :
    roundingInstr op p = some i ↔ op = opcode i ∧ i.precision = some p := by
  constructor
  · intro h
    unfold roundingInstr at h
    split at h
    case h_9 => cases h
    all_goals
      cases h
      exact ⟨rfl, rfl⟩
  · rintro ⟨rfl, h⟩
    cases i <;> cases h <;> rfl

/-- The other opcodes are those of the commands without a precision (R73). -/
theorem plainInstr_eq_some_iff (op : Nat) (i : Instr) :
    plainInstr op = some i ↔ op = opcode i ∧ i.precision = none := by
  constructor
  · intro h
    unfold plainInstr at h
    split at h
    case h_19 => cases h
    all_goals
      cases h
      exact ⟨rfl, rfl⟩
  · rintro ⟨rfl, h⟩
    cases i <;> cases h <;> rfl

/-- The range of the rounding opcodes (R73). -/
theorem roundingInstr_eq_none_iff (op p : Nat) : roundingInstr op p = none ↔ ¬(0x20 ≤ op ∧ op ≤ 0x27) := by
  unfold roundingInstr
  split
  case h_9 =>
    simp only [imp_false, true_iff] at *
    omega
  all_goals simp

/-- The three ranges of the other opcodes (R73). -/
theorem plainInstr_eq_none_iff (op : Nat) :
    plainInstr op = none ↔
      ¬((0x01 ≤ op ∧ op ≤ 0x06) ∨ (0x10 ≤ op ∧ op ≤ 0x15) ∨ (0x18 ≤ op ∧ op ≤ 0x1D)) := by
  unfold plainInstr
  split
  case h_19 =>
    simp only [imp_false, true_iff] at *
    omega
  all_goals simp

/-- An opcode is in one table only (R73). -/
theorem roundingInstr_eq_none_of_plainInstr {op : Nat} {i : Instr} (h : plainInstr op = some i) (p : Nat) :
    roundingInstr op p = none := by
  have hop : plainInstr op ≠ none := by simp [h]
  rw [Ne, plainInstr_eq_none_iff] at hop
  rw [roundingInstr_eq_none_iff]
  omega

/-! ### The decoder -/

theorem decode_of_roundingInstr {w : CmdWord} {i : Instr} (h : roundingInstr (opcodeOf w) (imm8Of w) = some i) :
    decode w = .ok i := by
  rw [decode, h]

theorem decode_of_plainInstr {w : CmdWord} {i : Instr} (h : plainInstr (opcodeOf w) = some i) :
    decode w = if imm8Of w = 0 then .ok i else .error (.nonzeroImm8 (opcodeOf w) (imm8Of w)) := by
  rw [decode, roundingInstr_eq_none_of_plainInstr h, h]

theorem decode_of_unlisted {w : CmdWord} (hr : roundingInstr (opcodeOf w) (imm8Of w) = none)
    (hp : plainInstr (opcodeOf w) = none) : decode w = .error (.unlistedOpcode (opcodeOf w)) := by
  rw [decode, hr, hp]

/-- A word spells a command exactly when its low byte is the opcode and its high byte the precision, 0 where the
command has none (R73, R75). -/
theorem decode_eq_ok_iff (w : CmdWord) (i : Instr) :
    decode w = .ok i ↔ opcodeOf w = opcode i ∧ imm8Of w = i.precision.getD 0 := by
  constructor
  · intro h
    cases hr : roundingInstr (opcodeOf w) (imm8Of w) with
    | some j =>
      rw [decode_of_roundingInstr hr] at h
      cases h
      obtain ⟨hop, hprec⟩ := (roundingInstr_eq_some_iff _ _ _).1 hr
      exact ⟨hop, by rw [hprec, Option.getD_some]⟩
    | none =>
      cases hp : plainInstr (opcodeOf w) with
      | none =>
        rw [decode_of_unlisted hr hp] at h
        cases h
      | some j =>
        rw [decode_of_plainInstr hp] at h
        split at h
        case isFalse => cases h
        case isTrue himm =>
          cases h
          obtain ⟨hop, hprec⟩ := (plainInstr_eq_some_iff _ _).1 hp
          exact ⟨hop, by rw [hprec, Option.getD_none, himm]⟩
  · rintro ⟨hop, himm⟩
    cases hprec : i.precision with
    | none =>
      rw [hprec, Option.getD_none] at himm
      rw [decode_of_plainInstr ((plainInstr_eq_some_iff _ _).2 ⟨hop, hprec⟩), if_pos himm]
    | some p =>
      rw [hprec, Option.getD_some] at himm
      exact decode_of_roundingInstr ((roundingInstr_eq_some_iff _ _ _).2 ⟨hop, by rw [hprec, himm]⟩)

/-- Encoding and then decoding a well-formed command (R80, R75). -/
theorem decode_encode {i : Instr} (h : i.wf = true) : decode (encode i) = .ok i :=
  (decode_eq_ok_iff _ i).2 ⟨opcodeOf_encode i, imm8Of_encode h⟩

/-- Settles O1: the two fields of the encoded word are the command's opcode and precision, and they are what the
decoder goes by. -/
theorem encodedWordDecodesBack : Obligations.EncodedWordDecodesBack :=
  fun _ => decode_encode

/-- Settles O2: the fields of a word that decodes are the command's opcode and precision, of which both the word
and the command's encoding are made. -/
theorem decodedWordIsItsEncoding : Obligations.DecodedWordIsItsEncoding := by
  intro w i h
  obtain ⟨hop, himm⟩ := (decode_eq_ok_iff w i).1 h
  constructor
  · rw [Instr.wf_iff, ← himm]
    exact imm8Of_lt w
  · rw [encode, ← hop, ← himm]
    exact ofNat_opcodeOf_imm8Of w

/-- Settles O3: the ranges of the statement are those of the two opcode tables. -/
theorem decodingProcedureIsTotal : Obligations.DecodingProcedureIsTotal := by
  intro w op imm
  rw [← show opcodeOf w = op from opcodeOf_eq w, ← show imm8Of w = imm from imm8Of_eq w]
  split_ifs with rounding plain
  · cases h : roundingInstr (opcodeOf w) (imm8Of w) with
    | none => exact absurd rounding ((roundingInstr_eq_none_iff _ _).1 h)
    | some i =>
      obtain ⟨hop, hprec⟩ := (roundingInstr_eq_some_iff _ _ _).1 h
      exact ⟨i, decode_of_roundingInstr h, hop.symm, hprec⟩
  · obtain ⟨range, himm⟩ := plain
    cases h : plainInstr (opcodeOf w) with
    | none => exact absurd range ((plainInstr_eq_none_iff _).1 h)
    | some i =>
      obtain ⟨hop, hprec⟩ := (plainInstr_eq_some_iff _ _).1 h
      exact ⟨i, by rw [decode_of_plainInstr h, if_pos himm], hop.symm, hprec⟩
  · cases h : plainInstr (opcodeOf w) with
    | none => exact ⟨_, decode_of_unlisted ((roundingInstr_eq_none_iff _ _).2 rounding) h⟩
    | some i =>
      have range : plainInstr (opcodeOf w) ≠ none := by simp [h]
      rw [Ne, plainInstr_eq_none_iff, not_not] at range
      exact ⟨_, by rw [decode_of_plainInstr h, if_neg fun himm => plain ⟨range, himm⟩]⟩

/-! ### The match and mask columns of R73 -/

/-- The `match` column is the opcode, with imm8 zero (R73). -/
theorem matchBits_eq (i : Instr) : matchBits i = BitVec.ofNat 16 (opcode i) := by
  cases i <;> rfl

/-- Under the mask of a rounding command a word keeps its low byte (R73). -/
theorem toNat_and_low_byte (w : CmdWord) : (w &&& 0x00FF).toNat = opcodeOf w := by
  rw [opcodeOf_eq, BitVec.toNat_and]
  exact Nat.and_two_pow_sub_one_eq_mod w.toNat 8

/-- What a row of the table asks of a word: the opcode, and imm8 zero where the mask covers it (R73). -/
theorem and_maskBits_eq_matchBits_iff (w : CmdWord) (i : Instr) :
    w &&& maskBits i = matchBits i ↔ opcodeOf w = opcode i ∧ (i.precision = none → imm8Of w = 0) := by
  have hop := opcode_lt i
  have hw := w.isLt
  rw [matchBits_eq, ← BitVec.toNat_inj, BitVec.toNat_ofNat, Nat.mod_eq_of_lt (by omega)]
  cases h : i.precision with
  | none =>
    have full : w &&& maskBits i = w := by
      rw [maskBits, h]
      exact BitVec.and_allOnes
    rw [full, opcodeOf_eq, imm8Of_eq, eq_self, true_imp_iff]
    omega
  | some p =>
    have low : w &&& maskBits i = w &&& 0x00FF := by simp only [maskBits, h]
    rw [low, toNat_and_low_byte]
    simp

/-- Settles O4: a row's match and mask, with the precision in the high byte, fix the two fields the decoder goes
by. -/
theorem wordSpellsCommandByMask : Obligations.WordSpellsCommandByMask := by
  intro w i
  rw [decode_eq_ok_iff, and_maskBits_eq_matchBits_iff, ← imm8Of_eq]
  cases i.precision <;> simp [eq_comm]

/-! ### The image of a value register and the integer in N -/

/-- A record is determined by its three fields as numbers. -/
theorem Dec.eq_of_toNat_eq {v w : Dec} (hc : v.coef.toNat = w.coef.toNat) (he : v.exp.toNat = w.exp.toNat)
    (hs : v.state.toNat = w.state.toNat) : v = w := by
  obtain ⟨c, e, s⟩ := v
  obtain ⟨c', e', s'⟩ := w
  obtain rfl := BitVec.eq_of_toNat_eq hc
  obtain rfl := BitVec.eq_of_toNat_eq he
  obtain rfl := BitVec.eq_of_toNat_eq hs
  rfl

/-- The image of a record spells that record (R76). -/
theorem Dec.ofImage_image (v : Dec) : Dec.ofImage v.image = v := by
  have hc := v.coef.isLt
  have he := v.exp.isLt
  have himage := v.image_toNat
  obtain ⟨coef, exp, state⟩ := Dec.ofImage_toNat v.image
  apply Dec.eq_of_toNat_eq <;> omega

/-- The record an image spells has that image (R76). -/
theorem Dec.image_ofImage (b : Image) : (Dec.ofImage b).image = b := by
  obtain ⟨coef, exp, state⟩ := Dec.ofImage_toNat b
  apply BitVec.eq_of_toNat_eq
  rw [Dec.image_toNat]
  omega

/-- Settles O6: the three fields cut from an image are those of the record it spells, which is the record the
image was made of. -/
theorem imageHoldsRecordFields : Obligations.ImageHoldsRecordFields :=
  ⟨fun v => ⟨congrArg Dec.coef v.ofImage_image, congrArg Dec.exp v.ofImage_image,
    congrArg Dec.state v.ofImage_image, v.ofImage_image⟩, Dec.image_ofImage⟩

/-- The formula of R77 over the numbers, bits 62:0 and bit 63 of N. -/
theorem sint_eq (n : IntWord) : sint n = (n.toNat % 2 ^ 63 : ℕ) - 2 ^ 63 * (n.toNat / 2 ^ 63 : ℕ) := by
  have h := n.isLt
  have low : (n.extractLsb' 0 63).toNat = n.toNat % 2 ^ 63 := by simp [BitVec.extractLsb'_toNat]
  have top : (n.extractLsb' 63 1).toNat = n.toNat / 2 ^ 63 := by
    rw [BitVec.extractLsb'_toNat, Nat.shiftRight_eq_div_pow]
    omega
  rw [sint, low, top]

/-- The formula of R77 is the two's complement reading. -/
theorem sint_eq_toInt (n : IntWord) : sint n = n.toInt := by
  have h := n.isLt
  rw [sint_eq, BitVec.toInt_eq_toNat_cond]
  omega

/-- Settles O8: the range is that of a 64-bit two's complement integer. -/
theorem integerRegisterIsTwosComplement : Obligations.IntegerRegisterIsTwosComplement := by
  intro n
  have lower : -(2 ^ 63) ≤ n.toInt := BitVec.le_toInt n
  have upper : n.toInt < 2 ^ 63 := BitVec.toInt_lt
  refine ⟨sint_eq n, sint_eq_toInt n, ?_⟩
  rw [sint_eq_toInt]
  omega

end Sys2Proof

namespace Sys2Proof.Machine

/-! ### Writes to CMD and N -/

/-- A register no wider than the port gets back the data it was sent (log entry 5). -/
theorem setWidth_port {k : Nat} (hk : k ≤ 144) (d : BitVec k) : (d.setWidth 144).setWidth k = d := by
  rw [BitVec.setWidth_setWidth_of_le d hk, BitVec.setWidth_eq]

/-- With no fault latched, a write to CMD is decoded (R54). -/
theorem hostWrite_cmd_of_clean (data : Image) {s : State} (hs : s.Clean) :
    hostWrite 3 data s = writeCommand (data.setWidth 16) s :=
  if_neg (State.not_faulted_of_clean hs)

/-- With no fault latched, a write to N stores its low 64 bits (R54). -/
theorem hostWrite_n_of_clean (data : Image) {s : State} (hs : s.Clean) :
    hostWrite 2 data s = .next { s with n := data.setWidth 64 } :=
  if_neg (State.not_faulted_of_clean hs)

/-- A word that decodes is executed (R54, R110). -/
theorem writeCommand_of_ok {w : CmdWord} {i : Instr} (h : decode w = .ok i) (s : State) :
    writeCommand w s = exec i s := by
  rw [writeCommand, h]

/-- A word that does not decode latches ILLCMD and does nothing else (R74, R228). -/
theorem writeCommand_of_error {w : CmdWord} {e : DecodeReject} (h : decode w = .error e) {s : State}
    (hs : s.Clean) : writeCommand w s = .next { s with statusFault := causeCode .illcmd } := by
  rw [writeCommand, h]
  exact congrArg Host.Outcome.next (State.raiseFault_of_clear _ _ hs)

/-- Settles O19: each of the words listed falls to the last clause of the decoding procedure, O3. -/
theorem illegalWordLatchesIllcmd : Obligations.IllegalWordLatchesIllcmd := by
  intro s rest w clean h illegal
  have hs : State.Clean { s with pending := rest } := clean
  have rejected : ∃ e, decode w = .error e := by
    have total := decodingProcedureIsTotal w
    dsimp only at total illegal
    rwa [if_neg (by bv_omega), if_neg (by bv_omega)] at total
  obtain ⟨e, he⟩ := rejected
  rw [step_of_pending h, perform, hostWrite_cmd_of_clean _ hs, setWidth_port (by decide),
    writeCommand_of_error he hs]
  rfl

/-! ### Pseudo-instructions -/

/-- An action done ahead of the host's stream leaves the stream as it was (log entry 8). -/
theorem hostDo_eq (a : HostAction) (s : State) : hostDo a s = perform a s := rfl

/-- A well-formed record's image passes the operand check and is written as that record (R55, R76). -/
theorem writeOperand_image {v : Dec} (h : v.wf = true) (set : State → Dec → State) (s : State) :
    writeOperand set v.image s = set s v := by
  rw [writeOperand, Dec.ofImage_image]
  exact if_pos h

/-- The value a read returned is the value written after it (R82). -/
theorem readThenWrite_of_readable {src : RegIndex} {s : State} {d : Image} (h : s.readable src = some d)
    (dst : RegIndex) : readThenWrite src dst s = hostWrite dst d (s.reply d) := by
  have read : hostDo (.read src) s = .next (s.reply d) := by rw [hostDo_eq, perform, hostRead, h]
  have last : (s.reply d).replies.getLastD 0 = d := by simp
  rw [readThenWrite, read]
  exact congrArg (fun x => hostWrite dst x (s.reply d)) last

/-- Copying a well-formed record to VA (R82). -/
theorem readThenWrite_va {src : RegIndex} {s : State} {v : Dec} (hs : s.Clean) (hv : v.wf = true)
    (h : s.readable src = some v.image) :
    readThenWrite src 0 s = .next { s with va := v, replies := s.replies ++ [v.image] } := by
  have reply_clean : (s.reply v.image).Clean := hs
  rw [readThenWrite_of_readable h, hostWrite_va_of_clean _ reply_clean, writeOperand_image hv]
  rfl

/-- Copying a well-formed record to VB (R82). -/
theorem readThenWrite_vb {src : RegIndex} {s : State} {v : Dec} (hs : s.Clean) (hv : v.wf = true)
    (h : s.readable src = some v.image) :
    readThenWrite src 1 s = .next { s with vb := v, replies := s.replies ++ [v.image] } := by
  have reply_clean : (s.reply v.image).Clean := hs
  rw [readThenWrite_of_readable h, hostWrite_vb_of_clean _ reply_clean, writeOperand_image hv]
  rfl

/-- LDI loads N (R82). -/
theorem runPseudo_ldi {s : State} (hs : s.Clean) (k : ℤ) :
    runPseudo (.ldi k) s = .next { s with n := BitVec.ofInt 64 k } := by
  rw [runPseudo, hostDo_eq, perform, hostWrite_n_of_clean _ hs, setWidth_port (by decide)]

/-- A command's name stands for the write of its word to CMD, which executes it (R82). -/
theorem runPseudo_cmd {s : State} (hs : s.Clean) {i : Instr} (hi : i.wf = true) :
    runPseudo (.cmd i) s = exec i s := by
  rw [runPseudo, hostDo_eq, perform, hostWrite_cmd_of_clean _ hs, setWidth_port (by decide),
    writeCommand_of_ok (decode_encode hi)]

/-- Settles O23: MOV, LDZ and LDO copy a well-formed record, and the other two are single writes. -/
theorem pseudoInstructionsExpand : Obligations.PseudoInstructionsExpand := by
  intro s inv hs
  obtain ⟨-, -, hvq, hvr, -⟩ := inv
  have zero : s.readable 7 = some Dec.zero.image := rfl
  have one : s.readable 8 = some Dec.one.image := rfl
  refine ⟨readThenWrite_va hs hvq rfl, readThenWrite_va hs hvr rfl, readThenWrite_vb hs hvq rfl,
    readThenWrite_vb hs hvr rfl, ?_, ?_, ?_, ?_, runPseudo_ldi hs, fun _ => runPseudo_cmd hs⟩
  · rw [← zero_image]
    exact readThenWrite_va hs Dec.zero_wf zero
  · rw [← zero_image]
    exact readThenWrite_vb hs Dec.zero_wf zero
  · rw [← one_image]
    exact readThenWrite_va hs Dec.one_wf one
  · rw [← one_image]
    exact readThenWrite_vb hs Dec.one_wf one

end Sys2Proof.Machine

/-! ## The canonical form (spec/40_canonical.md)

CANON strips trailing zeros (R100), and a nonzero quantity has one canonical record (R102). -/

namespace Sys2Proof

/-! ### The quantity of a record -/

/-- A finite record is well-formed and no error marker (R24, R26). -/
theorem Dec.finite_iff (v : Dec) : v.finite = true ↔ v.isError = false ∧ v.wf = true := by
  simp [Dec.finite]

/-- The quantity is the signed coefficient at the record's exponent (R13, R115). -/
theorem Dec.val_eq_signed_div (v : Dec) : v.val = v.signed / 10 ^ v.exp.toNat := by
  unfold Dec.val Dec.signed
  split <;> simp

@[simp] theorem Dec.signed_natAbs (v : Dec) : v.signed.natAbs = v.coef.toNat := by
  unfold Dec.signed
  split <;> simp

/-- Two quantities compared over the integers, by cross multiplication. -/
theorem Dec.val_eq_val_iff (v w : Dec) :
    v.val = w.val ↔ v.signed * 10 ^ w.exp.toNat = w.signed * 10 ^ v.exp.toNat := by
  rw [v.val_eq_signed_div, w.val_eq_signed_div, div_eq_div_iff (by positivity) (by positivity)]
  norm_cast

/-- Records of one quantity have the same magnitude. -/
theorem Dec.coef_cross_of_val_eq {v w : Dec} (h : v.val = w.val) :
    v.coef.toNat * 10 ^ w.exp.toNat = w.coef.toNat * 10 ^ v.exp.toNat := by
  simpa [Int.natAbs_mul, Int.natAbs_pow] using congrArg Int.natAbs ((Dec.val_eq_val_iff v w).1 h)

theorem Dec.val_eq_zero_iff (v : Dec) : v.val = 0 ↔ v.coef.toNat = 0 := by
  rw [v.val_eq_signed_div, ← v.signed_natAbs, Int.natAbs_eq_zero]
  simp

/-- A quantity is negative exactly when its record says Negative and is not a zero (R13). -/
theorem Dec.val_neg_iff (v : Dec) : v.val < 0 ↔ v.state = Dec.negative ∧ v.coef.toNat ≠ 0 := by
  rw [v.val_eq_signed_div, div_lt_iff₀ (by positivity), zero_mul, Int.cast_lt_zero, Dec.signed,
    show (1 : Byte) = Dec.negative from rfl]
  split_ifs with h
  · simp only [h, true_and]
    omega
  · simp only [h, false_and, iff_false]
    omega

/-- A nonzero quantity fixes the sign of its finite records. -/
theorem Dec.state_eq_of_val_eq {v w : Dec} (hv : v.isError = false) (hw : w.isError = false) (h0 : v.val ≠ 0)
    (h : v.val = w.val) : v.state = w.state := by
  have hvc : v.coef.toNat ≠ 0 := (Dec.val_eq_zero_iff v).not.1 h0
  have hwc : w.coef.toNat ≠ 0 := (Dec.val_eq_zero_iff w).not.1 (h ▸ h0)
  have same : v.state = Dec.negative ↔ w.state = Dec.negative := by
    have neg := v.val_neg_iff
    rw [h, w.val_neg_iff, and_iff_left hvc, and_iff_left hwc] at neg
    exact neg.symm
  rcases Dec.state_of_not_isError hv with pos | neg
  · rcases Dec.state_of_not_isError hw with pos' | neg'
    · rw [pos, pos']
    · rw [same.2 neg', neg']
  · rw [neg, same.1 neg]

/-! ### Canonical records -/

theorem Dec.isCanonical_iff (v : Dec) : v.isCanonical = true ↔ v.exp.toNat = 0 ∨ v.coef.toNat % 10 ≠ 0 := by
  rw [Dec.isCanonical, Bool.or_eq_true, beq_iff_eq, decide_eq_true_iff, ← BitVec.toNat_inj]
  rfl

/-- CANON gives a canonical record (R102 (b)). -/
theorem Dec.canonical_isCanonical {v : Dec} (h : v.isError = false) : v.canonical.isCanonical = true := by
  obtain ⟨-, -, done⟩ := Dec.canonical_spec h
  exact v.canonical.isCanonical_iff.2 done

/-- The loop of `Canonical` stops at once where it has nothing to strip (R100). -/
theorem canonicalLoop_eq_self {c e : Nat} (h : e = 0 ∨ c % 10 ≠ 0) : canonicalLoop c e = (c, e) := by
  cases e with
  | zero => rfl
  | succ e => exact if_neg (h.resolve_left e.succ_ne_zero)

/-- A canonical record is its own canonical form (R100). -/
theorem Dec.canonical_of_isCanonical {v : Dec} (h : v.isCanonical = true) : v.canonical = v := by
  cases he : v.isError with
  | true => exact Dec.canonical_of_isError he
  | false =>
    have loop := canonicalLoop_eq_self (v.isCanonical_iff.1 h)
    apply Dec.eq_of_toNat_eq
    · rw [Dec.canonical_coef he, loop]
    · rw [Dec.canonical_exp he, loop]
    · rw [Dec.canonical_state]

/-- The canonical form of a finite value has the value's quantity (R102 (a)). -/
theorem Dec.canonical_val {v : Dec} (h : v.isError = false) : v.canonical.val = v.val := by
  obtain ⟨hle, hcoef, -⟩ := Dec.canonical_spec h
  have hpow : (10 : ℚ) ^ v.exp.toNat = 10 ^ (v.exp.toNat - v.canonical.exp.toNat) * 10 ^ v.canonical.exp.toNat := by
    rw [← pow_add, Nat.sub_add_cancel hle]
  unfold Dec.val
  rw [hcoef, hpow, Dec.canonical_state]
  push_cast
  field_simp

/-- A canonical record has the smallest exponent among the records of its magnitude: at a larger one its
coefficient would end in a zero. -/
theorem Dec.exp_le_of_isCanonical {v w : Dec} (hv : v.isCanonical = true)
    (h : v.coef.toNat * 10 ^ w.exp.toNat = w.coef.toNat * 10 ^ v.exp.toNat) : v.exp.toNat ≤ w.exp.toNat := by
  by_contra! hlt
  obtain ⟨k, hk⟩ := Nat.exists_eq_add_of_lt hlt
  have hcoef : v.coef.toNat = w.coef.toNat * 10 ^ k * 10 := by
    apply Nat.eq_of_mul_eq_mul_right (show 0 < 10 ^ w.exp.toNat by positivity)
    rw [h, hk]
    ring
  rcases v.isCanonical_iff.1 hv with hexp | hmod <;> omega

/-- A nonzero quantity has one canonical record (R102 (d)). -/
theorem Dec.eq_of_isCanonical_of_val_eq {v w : Dec} (hve : v.isError = false) (hwe : w.isError = false)
    (hv : v.isCanonical = true) (hw : w.isCanonical = true) (h0 : v.val ≠ 0) (h : v.val = w.val) : v = w := by
  have cross := Dec.coef_cross_of_val_eq h
  have hexp : v.exp.toNat = w.exp.toNat :=
    (Dec.exp_le_of_isCanonical hv cross).antisymm (Dec.exp_le_of_isCanonical hw cross.symm)
  have hcoef : v.coef.toNat = w.coef.toNat := by
    rw [hexp] at cross
    exact Nat.eq_of_mul_eq_mul_right (by positivity) cross
  exact Dec.eq_of_toNat_eq hcoef hexp (congrArg BitVec.toNat (Dec.state_eq_of_val_eq hve hwe h0 h))

end Sys2Proof

namespace Sys2Proof.Machine

/-! ### CANON -/

/-- On a clean block with a well-formed VA, CANON writes VA's canonical form to VQ (R101). -/
theorem exec_canon {s : State} (hs : s.Clean) (hw : s.va.wf = true) :
    exec .canon s = .next { s with vq := s.va.canonical } := by
  rw [exec, execCanon, hw]
  exact commandFrame_ready hs

/-- Where CANON answers on a finite VA, it has written VA's canonical form to VQ and nothing else (R101). -/
theorem eq_of_exec_canon {s t : State} (hs : s.ReadyA) (h : exec .canon s = .next t) :
    t = { s with vq := s.va.canonical } := by
  obtain ⟨clean, -⟩ := hs
  exact commandFrame_next_of_clean clean h

/-- Settles O31: the canonical form is the coefficient and the exponent its loop leaves. -/
theorem canonStripsTrailingZeros : Obligations.CanonStripsTrailingZeros := by
  intro s hs hw
  refine ⟨_, exec_canon hs hw, ?_⟩
  split_ifs with he
  · exact Dec.canonical_of_isError he
  · rw [Bool.not_eq_true] at he
    obtain ⟨hle, hcoef, done⟩ := Dec.canonical_spec he
    refine ⟨s.va.canonical.coef.toNat, s.va.exp.toNat - s.va.canonical.exp.toNat, Nat.sub_le _ _, hcoef, ?_, ?_⟩
    · rwa [Nat.sub_sub_self hle]
    · rw [Nat.sub_sub_self hle, ← s.va.canonical_state]
      exact s.va.canonical.ofNat_toNat.symm

/-- Settles O32: the canonical form has VA's quantity, is a fixed point of CANON, and is the only canonical
record of a nonzero quantity. -/
theorem canonicalFormIsUnique : Obligations.CanonicalFormIsUnique := by
  intro s t hs h
  obtain rfl := eq_of_exec_canon hs h
  obtain ⟨clean, hfin⟩ := hs
  obtain ⟨he, hw⟩ := s.va.finite_iff.1 hfin
  have canon := Dec.canonical_isCanonical he
  refine ⟨Dec.canonical_val he, ?_, ?_, ?_⟩
  · exact (s.va.canonical.isCanonical_iff.1 canon).imp_left BitVec.eq_of_toNat_eq
  · have again := exec_canon (s := { s with va := s.va.canonical, vq := s.va.canonical }) clean (Dec.canonical_wf hw)
    rwa [Dec.canonical_of_isCanonical canon] at again
  · intro s' t' hs' h' h0 hval
    obtain rfl := eq_of_exec_canon hs' h'
    obtain ⟨he', -⟩ := s'.va.finite_iff.1 hs'.2
    have hcanon : s'.va.canonical.val = s.va.canonical.val := by
      rw [Dec.canonical_val he', Dec.canonical_val he, hval]
    refine Dec.eq_of_isCanonical_of_val_eq ?_ ?_ (Dec.canonical_isCanonical he') canon ?_ hcanon
    · rwa [Dec.canonical_isError]
    · rwa [Dec.canonical_isError]
    · rwa [Dec.canonical_val he', hval]

end Sys2Proof.Machine

/-! ## The adder/subtractor (spec/41_protocol_addsub.md)

The addition attempt is the exact aligned sum wherever that fits (R116), so ADD runs the three phases of R112 on it
(R117). SUB is ADD of the toggled operand (R119), and sums and differences are exact (R121). -/

namespace Sys2Proof

/-! ### The two tiers as three phases -/

/-- An attempt that is `exact` where it `fits`, on the operands and on their canonical forms, gives the three phases
of R112. -/
theorem threePhases_twoTier {α : Type} {att : Dec → Dec → Option α} {fits : Dec → Dec → Prop} [DecidableRel fits]
    {exact : Dec → Dec → α} (ovf : α) {a b : Dec} (fast : att a b = if fits a b then some (exact a b) else none)
    (retry : att a.canonical b.canonical =
      if fits a.canonical b.canonical then some (exact a.canonical b.canonical) else none) :
    ThreePhases fits exact ovf a b (twoTier att ovf a b) := by
  unfold twoTier
  rw [fast, retry]
  refine ⟨fun h => ?_, fun h h' => ?_, fun h h' => ?_⟩
  · rw [if_pos h]
  · rw [if_neg h, if_pos h']
  · rw [if_neg h, if_neg h']

/-- A property of the overflow result, and of the exact result wherever that fits, is one of the three-phase
result. -/
theorem ThreePhases.induct {α : Type} {fits : Dec → Dec → Prop} {exact : Dec → Dec → α} {ovf : α} {a b : Dec} {r : α}
    (h : ThreePhases fits exact ovf a b r) (P : α → Prop) (fast : fits a b → P (exact a b))
    (retry : fits a.canonical b.canonical → P (exact a.canonical b.canonical)) (ovfCase : P ovf) : P r := by
  obtain ⟨hfast, hretry, hovf⟩ := h
  by_cases hf : fits a b
  · exact hfast hf ▸ fast hf
  · by_cases hr : fits a.canonical b.canonical
    · exact hretry hf hr ▸ retry hr
    · exact hovf hf hr ▸ ovfCase

/-! ### The exact sum -/

/-- The aligned sum from the operands' signs and aligned magnitudes (R116). -/
theorem alignedSum_eq (a b : Dec) :
    alignedSum a b =
      (if a.state = 1 then -(alignedMag a (alignedExp a b) : ℤ) else alignedMag a (alignedExp a b)) +
        (if b.state = 1 then -(alignedMag b (alignedExp a b) : ℤ) else alignedMag b (alignedExp a b)) := by
  have aligned : ∀ (v : Dec) (e : ℕ), v.signed * 10 ^ (e - v.exp.toNat) =
      if v.state = 1 then -(alignedMag v e : ℤ) else alignedMag v e := by
    intro v e
    unfold Dec.signed alignedMag
    split <;> push_cast <;> ring
  rw [alignedSum, aligned, aligned]

theorem alignedExp_comm (a b : Dec) : alignedExp a b = alignedExp b a := max_comm _ _

theorem alignedSum_comm (a b : Dec) : alignedSum a b = alignedSum b a := by
  rw [alignedSum, alignedSum, alignedExp_comm a b, add_comm]

theorem addFits_comm (a b : Dec) : AddFits a b ↔ AddFits b a := by
  rw [AddFits, AddFits, alignedExp_comm a b, alignedSum_comm a b, and_left_comm]

theorem addExact_comm (a b : Dec) : addExact a b = addExact b a := by
  have zeroSign : (if a.state = b.state then a.state else 0) = if b.state = a.state then b.state else 0 := by
    split_ifs with h h' h'
    · exact h
    · exact absurd h.symm h'
    · exact absurd h'.symm h
    · rfl
  rw [addExact, addExact, alignedExp_comm a b, alignedSum_comm a b, zeroSign]

/-- A sum that is `a`'s sign on the magnitude `m` is the record of that magnitude and sign, if `m` is nonzero or both
operands have the sign (R116). -/
theorem addExact_eq_ofNat {a b : Dec} {m : ℕ} (ha : a.isError = false)
    (hsum : alignedSum a b = if a.state = 1 then -(m : ℤ) else m) (hzero : m = 0 → a.state = b.state) :
    addExact a b = Dec.ofNat m (alignedExp a b) a.state := by
  have habs : (alignedSum a b).natAbs = m := by
    rw [hsum]
    split <;> simp
  have hsign : (addExact a b).state = a.state := by
    rw [addExact, hsum]
    rcases Dec.state_of_not_isError ha with pos | neg
    · rw [pos, if_neg (by decide), if_neg (by omega), show (0 : Byte) = Dec.positive from rfl, ite_self, ite_self]
    · rw [neg, if_pos (by decide)]
      by_cases hm : m = 0
      · simp [hm, ← hzero hm, neg]
      · rw [if_pos (by omega)]
        rfl
  rw [← hsign, ← habs]
  rfl

/-- Operands of one sign have the sum of the magnitudes as their sum, with that sign (R116). -/
theorem alignedSum_of_same_sign {a b : Dec} (h : a.state = b.state) :
    alignedSum a b =
      if a.state = 1 then -(alignedMag a (alignedExp a b) + alignedMag b (alignedExp a b) : ℤ)
      else alignedMag a (alignedExp a b) + alignedMag b (alignedExp a b) := by
  rw [alignedSum_eq, ← h]
  split <;> omega

/-- Operands of one sign: the magnitudes are added, and the sign is kept even by a zero sum (R116). -/
theorem addExact_of_same_sign {a b : Dec} (ha : a.isError = false) (h : a.state = b.state) :
    addExact a b =
      Dec.ofNat (alignedMag a (alignedExp a b) + alignedMag b (alignedExp a b)) (alignedExp a b) a.state := by
  refine addExact_eq_ofNat ha ?_ fun _ => h
  rw [alignedSum_of_same_sign h, Nat.cast_add]

/-- Finite operands of two signs have the difference of the magnitudes as their sum, with the left sign (R116). -/
theorem alignedSum_of_two_signs {a b : Dec} (ha : a.isError = false) (hb : b.isError = false)
    (h : a.state ≠ b.state) :
    alignedSum a b =
      if a.state = 1 then -(alignedMag a (alignedExp a b) - alignedMag b (alignedExp a b) : ℤ)
      else alignedMag a (alignedExp a b) - alignedMag b (alignedExp a b) := by
  have opposite : b.state = 1 ↔ ¬a.state = 1 :=
    ⟨fun neg neg' => h (neg'.trans neg.symm), fun notNeg => (Dec.state_of_not_isError hb).resolve_left fun pos =>
      h (((Dec.state_of_not_isError ha).resolve_right notNeg).trans pos.symm)⟩
  rw [alignedSum_eq]
  simp only [opposite]
  split_ifs <;> omega

/-- Operands of two signs, the left one larger: the smaller magnitude is subtracted, and the left sign is kept
(R116). -/
theorem addExact_of_larger_left {a b : Dec} (ha : a.isError = false) (hb : b.isError = false)
    (h : a.state ≠ b.state) (hlt : alignedMag b (alignedExp a b) < alignedMag a (alignedExp a b)) :
    addExact a b =
      Dec.ofNat (alignedMag a (alignedExp a b) - alignedMag b (alignedExp a b)) (alignedExp a b) a.state := by
  refine addExact_eq_ofNat ha ?_ fun hm => by omega
  rw [alignedSum_of_two_signs ha hb h, Nat.cast_sub hlt.le]

/-- An exact cancellation is a Positive zero (R116). -/
theorem addExact_of_cancellation {a b : Dec} (ha : a.isError = false) (hb : b.isError = false)
    (h : a.state ≠ b.state) (heq : alignedMag a (alignedExp a b) = alignedMag b (alignedExp a b)) :
    addExact a b = Dec.ofNat 0 (alignedExp a b) Dec.positive := by
  have hsum : alignedSum a b = 0 := by
    rw [alignedSum_of_two_signs ha hb h, heq]
    simp
  rw [addExact, hsum, if_neg (lt_irrefl 0), if_neg (lt_irrefl 0), if_neg h]
  rfl

/-! ### The attempt of addition -/

/-- A successful attempt is the exact sum (R116). -/
theorem eq_addExact_of_addAttempt {a b r : Dec} (ha : a.isError = false) (hb : b.isError = false)
    (h : addAttempt a b = some r) : r = addExact a b := by
  obtain ⟨ca, cb, e, rfl, rfl, rfl, -, -, hr⟩ := addAttempt_some h
  rcases hr with ⟨same, -, rfl⟩ | ⟨differ, larger, rfl⟩ | ⟨differ, smaller, rfl⟩ | ⟨differ, equal, rfl⟩
  · exact (addExact_of_same_sign ha same).symm
  · exact (addExact_of_larger_left ha hb differ larger).symm
  · rw [max_comm] at smaller ⊢
    rw [addExact_comm]
    exact (addExact_of_larger_left hb ha (Ne.symm differ) smaller).symm
  · exact (addExact_of_cancellation ha hb differ equal).symm

/-- The attempt fails exactly where the sum or an aligned magnitude does not fit (R116). Operands of two signs
cannot fail on the sum. -/
theorem addAttempt_eq_none_iff {a b : Dec} (ha : a.isError = false) (hb : b.isError = false) :
    addAttempt a b = none ↔ ¬AddFits a b := by
  rw [addAttempt_none, AddFits]
  change 2 ^ 128 ≤ alignedMag a (alignedExp a b) ∨ 2 ^ 128 ≤ alignedMag b (alignedExp a b) ∨
    a.state = b.state ∧ 2 ^ 128 ≤ alignedMag a (alignedExp a b) + alignedMag b (alignedExp a b) ↔ _
  by_cases h : a.state = b.state
  · have hsum := alignedSum_of_same_sign h
    simp only [h, true_and]
    split at hsum <;> omega
  · have hsum := alignedSum_of_two_signs ha hb h
    simp only [h, false_and, or_false]
    split at hsum <;> omega

/-- The attempt of addition is the exact sum where it fits, and fails elsewhere (R116). -/
theorem addAttempt_eq {a b : Dec} (ha : a.isError = false) (hb : b.isError = false) :
    addAttempt a b = if AddFits a b then some (addExact a b) else none := by
  cases h : addAttempt a b with
  | none => rw [if_neg ((addAttempt_eq_none_iff ha hb).1 h)]
  | some r =>
    have fits : AddFits a b := by
      by_contra hf
      rw [(addAttempt_eq_none_iff ha hb).2 hf] at h
      cases h
    rw [if_pos fits, eq_addExact_of_addAttempt ha hb h]

theorem addAttempt_comm {a b : Dec} (ha : a.isError = false) (hb : b.isError = false) :
    addAttempt a b = addAttempt b a := by
  rw [addAttempt_eq ha hb, addAttempt_eq hb ha, addExact_comm]
  exact if_congr (addFits_comm a b) rfl rfl

/-! ### The operation Add -/

/-- Add of finite operands is the exact aligned sum by the three phases (R117). -/
theorem addOp_threePhases {a b : Dec} (ha : a.isError = false) (hb : b.isError = false) :
    ThreePhases AddFits addExact (Dec.err Dec.overflow) a b (addOp a b) := by
  rw [addOp, shortCircuit_finite _ _ ha hb]
  refine threePhases_twoTier _ (addAttempt_eq ha hb) (addAttempt_eq ?_ ?_)
  · rwa [Dec.canonical_isError]
  · rwa [Dec.canonical_isError]

/-- Add is commutative on finite operands, record for record (R121). -/
theorem addOp_comm {a b : Dec} (ha : a.isError = false) (hb : b.isError = false) : addOp a b = addOp b a := by
  have retry : addAttempt a.canonical b.canonical = addAttempt b.canonical a.canonical :=
    addAttempt_comm (by rwa [Dec.canonical_isError]) (by rwa [Dec.canonical_isError])
  rw [addOp, addOp, shortCircuit_finite _ _ ha hb, shortCircuit_finite _ _ hb ha]
  unfold twoTier
  rw [addAttempt_comm ha hb, retry]

/-! ### Quantities of sums and differences -/

/-- The record of a sum that fits holds the sum with its sign (R116). -/
theorem addExact_signed {a b : Dec} (h : (alignedSum a b).natAbs < 2 ^ 128) :
    (addExact a b).signed = alignedSum a b := by
  have hcoef : (addExact a b).coef.toNat = (alignedSum a b).natAbs := Nat.mod_eq_of_lt h
  rw [Dec.signed, hcoef]
  rcases lt_trichotomy (alignedSum a b) 0 with neg | zero | pos
  · have hs : (addExact a b).state = 1 := if_pos neg
    rw [if_pos hs]
    omega
  · rw [zero]
    simp
  · have hs : (addExact a b).state = 0 := by rw [addExact, if_neg pos.not_gt, if_pos pos]
    rw [hs, if_neg (by decide)]
    omega

/-- The aligned exponent is one of the operands' exponents, so it fits the exponent field (R116). -/
theorem addExact_exp (a b : Dec) : (addExact a b).exp.toNat = alignedExp a b :=
  Nat.mod_eq_of_lt (max_lt a.exp.isLt b.exp.isLt)

/-- A sum that fits has the sum of the quantities (R121). -/
theorem addExact_val {a b : Dec} (h : AddFits a b) : (addExact a b).val = a.val + b.val := by
  obtain ⟨-, -, hsum⟩ := h
  have scale : ∀ v : Dec, v.exp.toNat ≤ alignedExp a b →
      v.val = v.signed * 10 ^ (alignedExp a b - v.exp.toNat) / 10 ^ alignedExp a b := by
    intro v hv
    rw [v.val_eq_signed_div, ← Nat.sub_add_cancel hv, pow_add, Nat.add_sub_cancel]
    field_simp
  rw [Dec.val_eq_signed_div, addExact_signed hsum, addExact_exp, alignedSum, scale a (le_max_left _ _),
    scale b (le_max_right _ _), ← add_div]
  push_cast
  rfl

/-- Where Add of finite operands is finite, it is exact (R121). -/
theorem addOp_val {a b : Dec} (ha : a.isError = false) (hb : b.isError = false)
    (h : (addOp a b).isError = false) : (addOp a b).val = a.val + b.val := by
  refine (addOp_threePhases ha hb).induct (fun r => r.isError = false → r.val = a.val + b.val)
    (fun fits _ => addExact_val fits) (fun fits _ => ?_) (fun herr => ?_) h
  · rw [addExact_val fits, Dec.canonical_val ha, Dec.canonical_val hb]
  · exact absurd herr (by decide)

/-- A toggled finite record has the opposite quantity (R25). -/
theorem Dec.toggle_val {v : Dec} (h : v.isError = false) : v.toggle.val = -v.val := by
  unfold Dec.val Dec.toggle
  rcases Dec.state_of_not_isError h with hs | hs <;> simp [hs, Dec.positive, Dec.negative] <;> ring

/-- Where Sub of finite operands is finite, it is exact (R121). -/
theorem subOp_val {a b : Dec} (ha : a.isError = false) (hb : b.isError = false)
    (h : (subOp a b).isError = false) : (subOp a b).val = a.val - b.val := by
  rw [subOp_finite ha hb] at h ⊢
  rw [addOp_val ha (Dec.toggle_isError hb) h, Dec.toggle_val hb, sub_eq_add_neg]

end Sys2Proof

namespace Sys2Proof.Machine

/-! ### ADD and SUB -/

/-- On a block ready for it, ADD writes Add of VA and VB to VQ (R118). -/
theorem exec_add {s : State} (hs : s.Ready) : exec .add s = .next { s with vq := addOp s.va s.vb } := by
  obtain ⟨clean, wf⟩ := hs
  rw [exec, execAdd, (State.operandsWf_iff s).2 wf]
  exact commandFrame_ready clean

/-- On a block ready for it, SUB writes Sub of VA and VB to VQ (R120). -/
theorem exec_sub {s : State} (hs : s.Ready) : exec .sub s = .next { s with vq := subOp s.va s.vb } := by
  obtain ⟨clean, wf⟩ := hs
  rw [exec, execSub, (State.operandsWf_iff s).2 wf]
  exact commandFrame_ready clean

/-- Settles O33: Add is the error short-circuit of R111, then the three phases of R112 on the exact sum. -/
theorem addDeliversAlignedSum : Obligations.AddDeliversAlignedSum := by
  intro s hs
  refine ⟨_, exec_add hs, ?_⟩
  split_ifs with ha hb
  · exact shortCircuit_left _ _ _ ha
  · rw [Bool.not_eq_true] at ha
    exact shortCircuit_right _ _ ha hb
  · rw [Bool.not_eq_true] at ha hb
    exact addOp_threePhases ha hb

/-- Settles O34: an error operand ends Sub before the toggle, and on finite operands Sub is Add of the toggled one. -/
theorem subIsAddOfToggledOperand : Obligations.SubIsAddOfToggledOperand := by
  intro s hs
  refine ⟨fun ha => ?_, fun ha hb => ?_, fun ha hb => ⟨_, exec_sub hs, ?_⟩⟩
  · rw [exec_sub hs, subOp, shortCircuit_left _ _ _ ha]
    rfl
  · rw [exec_sub hs, subOp, shortCircuit_right _ _ ha hb]
    rfl
  · rintro b rfl
    obtain ⟨clean, hwa, hwb⟩ := hs
    rw [subOp_finite ha hb]
    exact exec_add (s := { s with vb := s.vb.toggle }) ⟨clean, hwa, Dec.toggle_wf hwb hb⟩

/-- Settles O35: Add is commutative, and both operations are exact where they do not overflow, so
`(a - b) + b` has the quantity of `a`. -/
theorem additionIsExactAndCommutative : Obligations.AdditionIsExactAndCommutative := by
  rintro s ⟨clean, hfa, hfb⟩
  obtain ⟨ha, hwa⟩ := s.va.finite_iff.1 hfa
  obtain ⟨hb, hwb⟩ := s.vb.finite_iff.1 hfb
  refine ⟨_, _, exec_add ⟨clean, hwa, hwb⟩, exec_sub ⟨clean, hwa, hwb⟩, ?_, addOp_val ha hb, subOp_val ha hb,
    fun hd => ⟨_, exec_add (s := { s with va := subOp s.va s.vb }) ⟨clean, subOp_wf hwa hwb, hwb⟩, fun hq => ?_⟩⟩
  · rw [addOp_comm ha hb]
    exact exec_add (s := { s with va := s.vb, vb := s.va }) ⟨clean, hwb, hwa⟩
  · calc (addOp (subOp s.va s.vb) s.vb).val
        = (subOp s.va s.vb).val + s.vb.val := addOp_val hd hb hq
      _ = s.va.val := by rw [subOp_val ha hb hd, sub_add_cancel]

end Sys2Proof.Machine

/-! ## The multiplier (spec/42_mul.md)

The multiplication attempt is the exact product wherever that fits (R130), so MUL runs the three phases of R112 on it,
after the error checks and the test for a zero operand (R131). -/

namespace Sys2Proof

/-! ### The attempt of multiplication -/

/-- On finite operands the XOR of the sign codes is the sign of the product (R130). -/
theorem Dec.signXor_eq_signOf {a b : Dec} (ha : a.isError = false) (hb : b.isError = false) :
    a.signXor b = signOf a b :=
  Dec.signXor_finite ha hb

/-- A successful attempt is the exact product (R130). -/
theorem eq_mulExact_of_mulAttempt {a b r : Dec} (ha : a.isError = false) (hb : b.isError = false)
    (h : mulAttempt a b = some r) : r = mulExact a b := by
  obtain ⟨-, -, rfl⟩ := mulAttempt_some h
  rw [Dec.signXor_eq_signOf ha hb]
  rfl

/-- The attempt fails exactly where the exponent or the product does not fit (R130). -/
theorem mulAttempt_eq_none_iff (a b : Dec) : mulAttempt a b = none ↔ ¬MulFits a b := by
  rw [mulAttempt_none, MulFits]
  omega

/-- The attempt of multiplication is the exact product where it fits, and fails elsewhere (R130). -/
theorem mulAttempt_eq {a b : Dec} (ha : a.isError = false) (hb : b.isError = false) :
    mulAttempt a b = if MulFits a b then some (mulExact a b) else none := by
  cases h : mulAttempt a b with
  | none => rw [if_neg ((mulAttempt_eq_none_iff a b).1 h)]
  | some r =>
    obtain ⟨hexp, hcoef, -⟩ := mulAttempt_some h
    rw [if_pos ⟨hexp, hcoef⟩, eq_mulExact_of_mulAttempt ha hb h]

/-! ### The operation Mul -/

/-- Mul of finite operands with a zero among them is the constant `Zero` (R131). -/
theorem mulOp_of_zero {a b : Dec} (ha : a.isError = false) (hb : b.isError = false)
    (h0 : a.coef = 0 ∨ b.coef = 0) : mulOp a b = Dec.zero := by
  have hz : (a.isZero || b.isZero) = true := by simpa [Dec.isZero] using h0
  rw [mulOp, shortCircuit_finite _ _ ha hb, if_pos hz]

/-- Mul of finite nonzero operands is the exact product by the three phases (R131). -/
theorem mulOp_threePhases {a b : Dec} (ha : a.isError = false) (hb : b.isError = false)
    (h0 : ¬(a.coef = 0 ∨ b.coef = 0)) :
    ThreePhases MulFits mulExact (Dec.err Dec.overflow) a b (mulOp a b) := by
  have hz : ¬(a.isZero || b.isZero) = true := by simpa [Dec.isZero] using h0
  rw [mulOp, shortCircuit_finite _ _ ha hb, if_neg hz]
  refine threePhases_twoTier _ (mulAttempt_eq ha hb) (mulAttempt_eq ?_ ?_)
  · rwa [Dec.canonical_isError]
  · rwa [Dec.canonical_isError]

end Sys2Proof

namespace Sys2Proof.Machine

/-! ### MUL -/

/-- On a block ready for it, MUL writes Mul of VA and VB to VQ (R132). -/
theorem exec_mul {s : State} (hs : s.Ready) : exec .mul s = .next { s with vq := mulOp s.va s.vb } := by
  obtain ⟨clean, wf⟩ := hs
  rw [exec, execMul, (State.operandsWf_iff s).2 wf]
  exact commandFrame_ready clean

/-- Settles O36: Mul is the error short-circuit of R111, then `Zero` for a zero operand, then the three phases of
R112 on the exact product. -/
theorem mulDeliversExactProduct : Obligations.MulDeliversExactProduct := by
  intro s hs
  refine ⟨_, exec_mul hs, ?_⟩
  split_ifs with ha hb h0
  · exact shortCircuit_left _ _ _ ha
  · rw [Bool.not_eq_true] at ha
    exact shortCircuit_right _ _ ha hb
  · rw [Bool.not_eq_true] at ha hb
    exact mulOp_of_zero ha hb h0
  · rw [Bool.not_eq_true] at ha hb
    exact mulOp_threePhases ha hb h0

end Sys2Proof.Machine

/-! ## The divider (spec/43_div.md)

Every division starts with the checks of R140. Where they let it go on, both attempts are the exact quotient, or
quotient and remainder, wherever those fit (R143, R147), so DIV and QUOREM run the three phases of R112 on them. MOD is
the remainder of QUOREM (R150), and a finite pair gives the dividend back (R152). -/

namespace Sys2Proof

/-! ### The checks before a division -/

/-- One of the checks of R140 ends the division. -/
abbrev DivisionEnds (a b : Dec) : Prop := a.isError = true ∨ b.isError = true ∨ b.coef = 0 ∨ a.coef = 0

/-- The record such a division delivers, by the first check that ends it (R140). -/
def endedDivision (a b : Dec) : Dec :=
  if a.isError = true then a else if b.isError = true then b else if b.coef = 0 then ⟨0, 0, 4⟩ else ⟨0, 0, 0⟩

theorem Dec.isZero_iff_coef (v : Dec) : v.isZero = true ↔ v.coef = 0 :=
  beq_iff_eq

/-- A check that ends the division delivers its record, wrapped (R140, R148). -/
theorem divisionChecks_of_ends {α : Type} (wrap : Dec → α) {a b : Dec} (rest : α) (h : DivisionEnds a b) :
    divisionChecks wrap a b rest = wrap (endedDivision a b) := by
  unfold endedDivision
  split_ifs with ha hb hbz
  · exact shortCircuit_left wrap _ _ ha
  · rw [Bool.not_eq_true] at ha
    exact shortCircuit_right wrap _ ha hb
  · rw [Bool.not_eq_true] at ha hb
    rw [divisionChecks, shortCircuit_finite _ _ ha hb, if_pos (b.isZero_iff_coef.2 hbz)]
    rfl
  · have haz : a.coef = 0 := ((h.resolve_left ha).resolve_left hb).resolve_left hbz
    rw [Bool.not_eq_true] at ha hb
    rw [divisionChecks, shortCircuit_finite _ _ ha hb, if_neg (b.isZero_iff_coef.not.2 hbz),
      if_pos (a.isZero_iff_coef.2 haz)]
    rfl

/-- Finite nonzero operands pass the checks (R140). -/
theorem divisionChecks_of_nonzero {α : Type} (wrap : Dec → α) {a b : Dec} (rest : α) (ha : a.isError = false)
    (hb : b.isError = false) (ha0 : a.coef ≠ 0) (hb0 : b.coef ≠ 0) : divisionChecks wrap a b rest = rest := by
  rw [divisionChecks, shortCircuit_finite _ _ ha hb, if_neg (b.isZero_iff_coef.not.2 hb0),
    if_neg (a.isZero_iff_coef.not.2 ha0)]

/-- A zero dividend over a finite nonzero divisor gives `Zero` twice (R140, R148). -/
theorem quoRemOp_of_zero_dividend {a b : Dec} (ha : a.isError = false) (hb : b.isError = false) (ha0 : a.coef = 0)
    (hb0 : b.coef ≠ 0) : quoRemOp a b = both Dec.zero := by
  rw [quoRemOp, divisionChecks_of_ends both _ (.inr (.inr (.inr ha0))), endedDivision, if_neg (by simp [ha]),
    if_neg (by simp [hb]), if_neg hb0]
  rfl

/-! ### The attempts of division -/

/-- An attempt that fails only where `fits` does not hold, and else delivers `exact` where it does. -/
theorem attempt_eq_ite {α : Type} {attempt : Option α} {fits : Prop} [Decidable fits] {exact : α}
    (fails : attempt = none → ¬fits) (delivers : ∀ r, attempt = some r → fits ∧ r = exact) :
    attempt = if fits then some exact else none := by
  cases h : attempt with
  | none => rw [if_neg (fails h)]
  | some r =>
    obtain ⟨hf, rfl⟩ := delivers r h
    rw [if_pos hf]

/-- The attempt of Div is the quotient at 19 places where it fits, and fails elsewhere (R143). -/
theorem divAttempt_eq {a b : Dec} (ha : a.isError = false) (hb : b.isError = false) :
    divAttempt a b = if DivFits a b then some (divExact a b) else none := by
  refine attempt_eq_ite (fun h => ?_) fun r h => ?_
  · have := divAttempt_none.1 h
    rw [DivFits]
    omega
  · obtain ⟨hn, hd, rfl⟩ := divAttempt_some h
    rw [Dec.signXor_eq_signOf ha hb]
    exact ⟨⟨hn, hd⟩, rfl⟩

/-- The attempt of QuoRem is quotient and remainder where they fit, and fails elsewhere (R147). -/
theorem quoRemAttempt_eq {a b : Dec} (ha : a.isError = false) (hb : b.isError = false) :
    quoRemAttempt a b = if QuoRemFits a b then some (quoRemExact a b) else none := by
  refine attempt_eq_ite (fun h => ?_) fun r h => ?_
  · have := quoRemAttempt_none.1 h
    rw [QuoRemFits]
    omega
  · obtain ⟨hn, hd, rfl⟩ := quoRemAttempt_some h
    rw [Dec.signXor_eq_signOf ha hb]
    exact ⟨⟨hn, hd⟩, rfl⟩

/-! ### The operations Div and QuoRem -/

/-- Div of finite nonzero operands is the quotient at 19 places by the three phases (R144). -/
theorem divOp_threePhases {a b : Dec} (ha : a.isError = false) (hb : b.isError = false) (ha0 : a.coef ≠ 0)
    (hb0 : b.coef ≠ 0) : ThreePhases DivFits divExact (Dec.err Dec.overflow) a b (divOp a b) := by
  rw [divOp, divisionChecks_of_nonzero _ _ ha hb ha0 hb0]
  refine threePhases_twoTier _ (divAttempt_eq ha hb) (divAttempt_eq ?_ ?_)
  · rwa [Dec.canonical_isError]
  · rwa [Dec.canonical_isError]

/-- QuoRem of finite nonzero operands is quotient and remainder by the three phases (R148). -/
theorem quoRemOp_threePhases {a b : Dec} (ha : a.isError = false) (hb : b.isError = false) (ha0 : a.coef ≠ 0)
    (hb0 : b.coef ≠ 0) :
    ThreePhases QuoRemFits quoRemExact (both (Dec.err Dec.overflow)) a b (quoRemOp a b) := by
  rw [quoRemOp, divisionChecks_of_nonzero _ _ ha hb ha0 hb0]
  refine threePhases_twoTier _ (quoRemAttempt_eq ha hb) (quoRemAttempt_eq ?_ ?_)
  · rwa [Dec.canonical_isError]
  · rwa [Dec.canonical_isError]

/-! ### The dividend from quotient and remainder -/

/-- A quantity at any exponent the record's own does not pass. -/
theorem Dec.val_eq_rescaled (v : Dec) {e : ℕ} (h : v.exp.toNat ≤ e) :
    v.val = v.signed * 10 ^ (e - v.exp.toNat) / 10 ^ e := by
  obtain ⟨k, rfl⟩ := Nat.exists_eq_add_of_le h
  rw [v.val_eq_signed_div, Nat.add_sub_cancel_left, pow_add]
  field_simp

/-- The canonical form of a finite value has no larger coefficient (R100). -/
theorem Dec.canonical_coef_le {v : Dec} (h : v.isError = false) : v.canonical.coef.toNat ≤ v.coef.toNat := by
  rw [Dec.canonical_coef h]
  exact canonicalLoop_le _ _

/-- With the signs of R142, quotient times divisor plus remainder has the dividend's sign and the magnitudes' own
value. -/
theorem signed_mul_add_signed {a b q r : Dec} (ha : a.isError = false) (hb : b.isError = false)
    (hq : q.state = signOf a b) (hr : r.state = a.state) :
    q.signed * b.signed + r.signed =
      if a.state = 1 then -(q.coef.toNat * b.coef.toNat + r.coef.toNat : ℤ)
      else q.coef.toNat * b.coef.toNat + r.coef.toNat := by
  unfold Dec.signed
  rw [hq, hr]
  unfold signOf
  rcases Dec.state_of_not_isError ha with sa | sa <;> rcases Dec.state_of_not_isError hb with sb | sb <;>
    simp [sa, sb, Dec.positive, Dec.negative] <;> ring

/-- The coefficients of a pair that fits are quotient and remainder of the rescaled dividend (R147). -/
theorem quoRemExact_coef {a b : Dec} (h : QuoRemFits a b) :
    (quoRemExact a b).1.coef.toNat = a.coef.toNat * 10 ^ (19 - a.exp.toNat) / b.coef.toNat ∧
      (quoRemExact a b).2.coef.toNat = a.coef.toNat * 10 ^ (19 - a.exp.toNat) % b.coef.toNat := by
  obtain ⟨hn, -⟩ := h
  exact ⟨Nat.mod_eq_of_lt ((Nat.div_le_self _ _).trans_lt hn), Nat.mod_eq_of_lt ((Nat.mod_le _ _).trans_lt hn)⟩

/-- Quotient times divisor plus remainder of a pair that fits, over the integers: the rescaled dividend with its
sign (R147). -/
theorem quoRemExact_signed {a b : Dec} (ha : a.isError = false) (hb : b.isError = false) (h : QuoRemFits a b) :
    (quoRemExact a b).1.signed * b.signed + (quoRemExact a b).2.signed =
      a.signed * 10 ^ (19 - a.exp.toNat) := by
  obtain ⟨hq, hr⟩ := quoRemExact_coef h
  have division := Nat.div_add_mod' (a.coef.toNat * 10 ^ (19 - a.exp.toNat)) b.coef.toNat
  rw [← hq, ← hr] at division
  have magnitudes : ((quoRemExact a b).1.coef.toNat * b.coef.toNat + (quoRemExact a b).2.coef.toNat : ℤ) =
      a.coef.toNat * 10 ^ (19 - a.exp.toNat) := by exact_mod_cast division
  rw [signed_mul_add_signed (q := (quoRemExact a b).1) (r := (quoRemExact a b).2) ha hb rfl rfl, magnitudes, Dec.signed]
  split <;> ring

/-- A pair that fits gives the dividend's quantity back (R152 (c)). -/
theorem quoRemExact_val {a b : Dec} (ha : a.finite = true) (hb : b.finite = true) (h : QuoRemFits a b) :
    a.val = (quoRemExact a b).1.val * b.val + (quoRemExact a b).2.val := by
  obtain ⟨hae, haw⟩ := a.finite_iff.1 ha
  obtain ⟨hbe, hbw⟩ := b.finite_iff.1 hb
  have expQ : (quoRemExact a b).1.exp.toNat = 19 - b.exp.toNat := Nat.mod_eq_of_lt (by omega)
  have expR : (quoRemExact a b).2.exp.toNat = 19 := rfl
  have exponents : (10 : ℚ) ^ (19 - b.exp.toNat) * 10 ^ b.exp.toNat = 10 ^ 19 := by
    rw [← pow_add, Nat.sub_add_cancel (Dec.exp_le_of_wf hbw hbe)]
  have integers : ((quoRemExact a b).1.signed * b.signed + (quoRemExact a b).2.signed : ℚ) =
      a.signed * 10 ^ (19 - a.exp.toNat) := by exact_mod_cast quoRemExact_signed hae hbe h
  calc a.val = a.signed * 10 ^ (19 - a.exp.toNat) / 10 ^ 19 := a.val_eq_rescaled (Dec.exp_le_of_wf haw hae)
    _ = (quoRemExact a b).1.signed * b.signed / 10 ^ 19 + (quoRemExact a b).2.signed / 10 ^ 19 := by
      rw [← integers, add_div]
    _ = (quoRemExact a b).1.val * b.val + (quoRemExact a b).2.val := by
      rw [Dec.val_eq_signed_div (quoRemExact a b).1, Dec.val_eq_signed_div (quoRemExact a b).2, b.val_eq_signed_div,
        expQ, expR, div_mul_div_comm, exponents]

/-- What division with remainder promises of a pair: the remainder is finite and smaller than the divisor, the dividend
is quotient times divisor plus remainder, and a nonzero dividend gives both signs (R142, R152 (c)). -/
structure IsDivision (a b : Dec) (qr : Dec × Dec) : Prop where
  remainder_finite : qr.2.isError = false
  val_eq : a.val = qr.1.val * b.val + qr.2.val
  remainder_lt : qr.2.coef.toNat < b.coef.toNat
  signs : a.coef ≠ 0 → qr.1.state = signOf a b ∧ qr.2.state = a.state

/-- A pair that fits is the division of the operands it is computed from (R147). -/
theorem quoRemExact_isDivision {a b : Dec} (ha : a.finite = true) (hb : b.finite = true) (hb0 : b.coef.toNat ≠ 0)
    (h : QuoRemFits a b) : IsDivision a b (quoRemExact a b) where
  remainder_finite := (a.finite_iff.1 ha).1
  val_eq := quoRemExact_val ha hb h
  remainder_lt := by
    rw [(quoRemExact_coef h).2]
    exact Nat.mod_lt _ (by omega)
  signs := fun _ => ⟨rfl, rfl⟩

theorem Dec.coef_eq_zero_iff (v : Dec) : v.coef = 0 ↔ v.coef.toNat = 0 :=
  BitVec.toNat_inj.symm

/-- A canonical form has a zero coefficient exactly when its value has. -/
theorem Dec.canonical_coef_eq_zero_iff {v : Dec} (h : v.isError = false) :
    v.canonical.coef.toNat = 0 ↔ v.coef.toNat = 0 := by
  rw [← Dec.val_eq_zero_iff, Dec.canonical_val h, Dec.val_eq_zero_iff]

theorem Dec.canonical_finite {v : Dec} (h : v.finite = true) : v.canonical.finite = true := by
  obtain ⟨he, hw⟩ := v.finite_iff.1 h
  exact v.canonical.finite_iff.2 ⟨v.canonical_isError.trans he, Dec.canonical_wf hw⟩

/-- A division of the canonical forms is one of the values themselves: a canonical form keeps quantity and sign, and
its coefficient is no larger. -/
theorem IsDivision.of_canonical {a b : Dec} {qr : Dec × Dec} (ha : a.isError = false) (hb : b.isError = false)
    (h : IsDivision a.canonical b.canonical qr) : IsDivision a b qr where
  remainder_finite := h.remainder_finite
  val_eq := by rw [← Dec.canonical_val ha, ← Dec.canonical_val hb, h.val_eq]
  remainder_lt := h.remainder_lt.trans_le (Dec.canonical_coef_le hb)
  signs := fun ha0 => by
    have ha0' : a.canonical.coef ≠ 0 := by
      rwa [Ne, Dec.coef_eq_zero_iff, Dec.canonical_coef_eq_zero_iff ha, ← Dec.coef_eq_zero_iff]
    simpa [signOf] using h.signs ha0'

/-- A zero dividend is zero times the divisor plus zero. -/
theorem isDivision_of_zero_dividend {a b : Dec} (ha0 : a.coef = 0) (hb0 : b.coef.toNat ≠ 0) :
    IsDivision a b (both Dec.zero) where
  remainder_finite := rfl
  val_eq := by
    have haz : a.val = 0 := a.val_eq_zero_iff.2 (by simp [ha0])
    have zero : Dec.zero.val = 0 := Dec.zero.val_eq_zero_iff.2 rfl
    rw [haz, both, zero, zero_mul, zero_add]
  remainder_lt := Nat.pos_of_ne_zero hb0
  signs := fun h => absurd ha0 h

/-- Where QuoRem of a finite dividend and a finite nonzero divisor is finite, it is a division (R152 (c)). -/
theorem quoRemOp_isDivision {a b : Dec} (ha : a.finite = true) (hb : b.finite = true) (hb0 : b.coef ≠ 0)
    (h : (quoRemOp a b).1.isError = false) : IsDivision a b (quoRemOp a b) := by
  obtain ⟨hae, -⟩ := a.finite_iff.1 ha
  obtain ⟨hbe, -⟩ := b.finite_iff.1 hb
  have hbn : b.coef.toNat ≠ 0 := b.coef_eq_zero_iff.not.1 hb0
  by_cases ha0 : a.coef = 0
  · rw [quoRemOp_of_zero_dividend hae hbe ha0 hb0]
    exact isDivision_of_zero_dividend ha0 hbn
  · refine (quoRemOp_threePhases hae hbe ha0 hb0).induct (fun qr => qr.1.isError = false → IsDivision a b qr)
      (fun fits _ => quoRemExact_isDivision ha hb hbn fits) (fun fits _ => ?_) (fun herr => ?_) h
    · exact (quoRemExact_isDivision (Dec.canonical_finite ha) (Dec.canonical_finite hb)
        ((Dec.canonical_coef_eq_zero_iff hbe).not.2 hbn) fits).of_canonical hae hbe
    · exact absurd herr (by decide)

end Sys2Proof

namespace Sys2Proof.Machine

/-! ### DIV, MOD and QUOREM, and the same with the divisor from N -/

/-- On a block ready for it, DIV writes Div of VA and VB to VQ (R145). -/
theorem exec_div {s : State} (hs : s.Ready) : exec .div s = .next { s with vq := divOp s.va s.vb } := by
  obtain ⟨clean, wf⟩ := hs
  rw [exec, execDiv, (State.operandsWf_iff s).2 wf]
  exact commandFrame_ready clean

/-- On a block ready for it, MOD writes Mod of VA and VB to VQ and leaves VR (R151). -/
theorem exec_mod {s : State} (hs : s.Ready) : exec .mod s = .next { s with vq := modOp s.va s.vb } := by
  obtain ⟨clean, wf⟩ := hs
  rw [exec, execMod, (State.operandsWf_iff s).2 wf]
  exact commandFrame_ready clean

/-- On a block ready for it, QUOREM writes both components of QuoRem of VA and VB (R149). -/
theorem exec_quorem {s : State} (hs : s.Ready) :
    exec .quorem s = .next { s with vq := (quoRemOp s.va s.vb).1, vr := (quoRemOp s.va s.vb).2 } := by
  obtain ⟨clean, wf⟩ := hs
  rw [exec, execQuorem, (State.operandsWf_iff s).2 wf]
  exact commandFrame_ready clean

/-- DIVI is Div of VA and the converted N, whatever VB holds (R206). -/
theorem exec_divi {s : State} (hs : s.Clean) (hw : s.va.wf = true) :
    exec .divi s = .next { s with vq := divOp s.va s.nOperand } := by
  rw [exec, execDivi, hw]
  exact commandFrame_ready hs

/-- MODI is Mod of VA and the converted N, whatever VB holds (R207). -/
theorem exec_modi {s : State} (hs : s.Clean) (hw : s.va.wf = true) :
    exec .modi s = .next { s with vq := modOp s.va s.nOperand } := by
  rw [exec, execModi, hw]
  exact commandFrame_ready hs

/-- QUOREMI is QuoRem of VA and the converted N, whatever VB holds (R208). -/
theorem exec_quoremi {s : State} (hs : s.Clean) (hw : s.va.wf = true) :
    exec .quoremi s = .next { s with vq := (quoRemOp s.va s.nOperand).1, vr := (quoRemOp s.va s.nOperand).2 } := by
  rw [exec, execQuoremi, hw]
  exact commandFrame_ready hs

/-- The converted N is zero exactly for N = 0 (R200). -/
theorem State.nOperand_coef_eq_zero_iff (s : State) : s.nOperand.coef = 0 ↔ s.n = 0 := by
  obtain ⟨magnitude, -, -⟩ := fromInt64_spec (sint s.n) (sint_natAbs_le s.n)
  rw [Dec.coef_eq_zero_iff, State.nOperand, magnitude, Int.natAbs_eq_zero, sint_eq_toInt, ← BitVec.toInt_inj]
  rfl

/-- Settles O38: a check that ends the division delivers its record to each of the six commands. The converted N is
never an error, and zero exactly for N = 0. -/
theorem divisionChecksInOrder : Obligations.DivisionChecksInOrder := by
  intro s clean hwa
  refine ⟨fun hwb ends => ?_, fun ends => ?_⟩
  · have hs : s.Ready := ⟨clean, hwa, hwb⟩
    refine ⟨endedDivision s.va s.vb, rfl, ?_, ?_, ?_⟩
    · rw [exec_div hs, divOp, divisionChecks_of_ends _ _ ends, id]
    · rw [exec_mod hs, modOp, quoRemOp, divisionChecks_of_ends _ _ ends, both]
    · rw [exec_quorem hs, quoRemOp, divisionChecks_of_ends _ _ ends, both]
  · have finite : s.nOperand.isError = false := fromInt64_isError _
    have ends' : DivisionEnds s.va s.nOperand := by
      rw [DivisionEnds, s.nOperand_coef_eq_zero_iff]
      exact ends.imp_right .inr
    refine ⟨endedDivision s.va s.nOperand, ?_, ?_, ?_, ?_⟩
    · simp only [endedDivision, finite, s.nOperand_coef_eq_zero_iff, Bool.false_eq_true, if_false]
    · rw [exec_divi clean hwa, divOp, divisionChecks_of_ends _ _ ends', id]
    · rw [exec_modi clean hwa, modOp, quoRemOp, divisionChecks_of_ends _ _ ends', both]
    · rw [exec_quoremi clean hwa, quoRemOp, divisionChecks_of_ends _ _ ends', both]

/-- Settles O39: finite nonzero operands pass the checks, and the attempt of Div is the exact quotient where it
fits. -/
theorem divDeliversScaledQuotient : Obligations.DivDeliversScaledQuotient := by
  rintro s ⟨clean, hfa, hfb⟩ ha0 hb0
  obtain ⟨ha, hwa⟩ := s.va.finite_iff.1 hfa
  obtain ⟨hb, hwb⟩ := s.vb.finite_iff.1 hfb
  exact ⟨_, exec_div ⟨clean, hwa, hwb⟩, divOp_threePhases ha hb ha0 hb0⟩

/-- Settles O42: finite nonzero operands pass the checks, and the attempt of QuoRem is the exact pair where it
fits. -/
theorem quoRemDeliversPair : Obligations.QuoRemDeliversPair := by
  rintro s ⟨clean, hfa, hfb⟩ ha0 hb0
  obtain ⟨ha, hwa⟩ := s.va.finite_iff.1 hfa
  obtain ⟨hb, hwb⟩ := s.vb.finite_iff.1 hfb
  exact ⟨_, exec_quorem ⟨clean, hwa, hwb⟩, quoRemOp_threePhases ha hb ha0 hb0⟩

/-- Settles O44: a zero dividend gives `Zero` twice, and a pair from either attempt divides the operands it is
computed from, whose quantities and signs are those of VA and VB. -/
theorem quotientTimesDivisorPlusRemainder : Obligations.QuotientTimesDivisorPlusRemainder := by
  rintro s ⟨clean, hfa, hfb⟩ hb0
  refine ⟨_, _, exec_quorem ⟨clean, (s.va.finite_iff.1 hfa).2, (s.vb.finite_iff.1 hfb).2⟩, fun hq => ?_⟩
  obtain ⟨finite, value, smaller, signs⟩ := quoRemOp_isDivision hfa hfb hb0 hq
  exact ⟨finite, value, smaller, signs⟩

/-- Settles O43: Mod is the second component of QuoRem, on the same operands. -/
theorem modIsRemainderOfQuoRem : Obligations.ModIsRemainderOfQuoRem :=
  fun _ hs => ⟨_, _, exec_quorem hs, exec_mod hs⟩

end Sys2Proof.Machine

/-! ## ABS, NEG, SQRT and POWI (spec/44_unary.md)

ABS and NEG by the operand's state (R160, R162), SQRT by the special cases of R165 and the floor root of R164, and
POWI by the recursion of R170, which the model runs on fuel. -/

namespace Sys2Proof

/-! ### The operations Abs and Neg -/

/-- Abs of an error value is that value (R160). -/
theorem absOp_of_isError {v : Dec} (h : v.isError = true) : absOp v = v :=
  if_pos h

/-- Abs of a finite value is Positive (R160). -/
theorem absOp_of_finite {v : Dec} (h : v.isError = false) : absOp v = ⟨v.coef, v.exp, Dec.positive⟩ :=
  if_neg (by simp [h])

/-- Neg of an error value is that value (R162). -/
theorem negOp_of_isError {v : Dec} (h : v.isError = true) : negOp v = v :=
  if_pos h

/-- Neg of a finite value is the toggled record (R162). -/
theorem negOp_of_finite {v : Dec} (h : v.isError = false) : negOp v = v.toggle :=
  if_neg (by simp [h])

@[simp] theorem Dec.toggle_toggle (v : Dec) : v.toggle.toggle = v := by
  simp [Dec.toggle]

/-- Neg by the operand's state (R162). -/
theorem negOp_eq (v : Dec) :
    negOp v = if v.state = 0 then ⟨v.coef, v.exp, 1⟩ else if v.state = 1 then ⟨v.coef, v.exp, 0⟩ else v := by
  cases he : v.isError with
  | true =>
    rw [Dec.isError_iff] at he
    have h0 : v.state ≠ 0 := fun h => by simp [h] at he
    have h1 : v.state ≠ 1 := fun h => by simp [h] at he
    rw [if_neg h0, if_neg h1, negOp_of_isError (v.isError_iff.2 he)]
  | false =>
    rw [negOp_of_finite he, Dec.toggle]
    rcases Dec.state_of_not_isError he with h | h <;> simp [h, Dec.positive, Dec.negative]

/-- Neg is its own inverse (R163). -/
theorem negOp_negOp (v : Dec) : negOp (negOp v) = v := by
  cases he : v.isError with
  | true => rw [negOp_of_isError he, negOp_of_isError he]
  | false => rw [negOp_of_finite he, negOp_of_finite (Dec.toggle_isError he), Dec.toggle_toggle]

/-! ### The operation Sqrt -/

theorem Dec.isNeg_iff (v : Dec) : v.isNeg = true ↔ v.state = 1 :=
  beq_iff_eq

/-- The root of a radicand at most 38 places wider than a coefficient is a coefficient, and the floor root (R164). -/
theorem sqrtRoot_spec (c : Coef) (e : ℕ) {r : Dec}
    (h : r = Dec.ofNat (isqrt (c.toNat * 10 ^ (38 - e))) 19 Dec.positive) :
    r.exp = 19 ∧ r.state = 0 ∧ r.coef.toNat * r.coef.toNat ≤ c.toNat * 10 ^ (38 - e) ∧
      c.toNat * 10 ^ (38 - e) < (r.coef.toNat + 1) * (r.coef.toNat + 1) := by
  have fits : c.toNat * 10 ^ (38 - e) < 2 ^ 256 := radicand_lt _ _ (Nat.sub_le _ _)
  obtain ⟨lower, upper⟩ := isqrt_spec fits
  rw [h, Dec.ofNat_coef_toNat (isqrt_lt fits)]
  exact ⟨rfl, rfl, lower, upper⟩

/-! ### The operation PowInt -/

/-- The power of an error value is that value (R170). -/
theorem powOp_of_isError {x : Dec} (h : x.isError = true) (n : ℤ) : powOp x n = x :=
  if_pos h

/-- For an exponent that is not negative PowInt is the recursion on naturals, its error test included (R170). -/
theorem powOp_natCast (x : Dec) (n : ℕ) : powOp x n = powNat Config.nBits x n := by
  cases h : x.isError with
  | true => simp [powOp_of_isError h, powNat, h]
  | false => simp [powOp, h]

theorem powOp_zero {x : Dec} (h : x.isError = false) : powOp x 0 = ⟨1, 0, 0⟩ := by
  rw [← Nat.cast_zero, powOp_natCast]
  simp [powNat, h, Dec.one, Dec.positive]

theorem powOp_one {x : Dec} (h : x.isError = false) : powOp x 1 = x := by
  rw [← Nat.cast_one, powOp_natCast]
  simp [powNat, h]

/-- From exponent 2 on PowInt squares the base and halves the exponent, with a trailing multiply for an odd one
(R170). -/
theorem powOp_square {x : Dec} (h : x.isError = false) {n : ℤ} (h2 : 2 ≤ n) (hn : n < 2 ^ 63) :
    powOp x n = if n % 2 = 0 then powOp (mulOp x x) (n / 2) else mulOp (powOp (mulOp x x) (n / 2)) x := by
  lift n to ℕ using by omega
  norm_cast at h2 hn ⊢
  rw [powOp_natCast, powOp_natCast, powNat_level x n h h2 hn]

/-- The most negative exponent gives Overflow (R170). -/
theorem powOp_min {x : Dec} (h : x.isError = false) : powOp x (-(2 ^ 63)) = ⟨0, 0, 3⟩ := by
  simp [powOp, h, Dec.err, Dec.overflow]

/-- Every other negative exponent gives the reciprocal of the power (R170). -/
theorem powOp_of_neg {x : Dec} (h : x.isError = false) {n : ℤ} (hneg : n < 0) (hmin : n ≠ -(2 ^ 63)) :
    powOp x n = divOp ⟨1, 0, 0⟩ (powOp x (-n)) := by
  have hcast : -n = (n.natAbs : ℤ) := by omega
  rw [hcast, powOp_natCast, powOp, h, if_neg Bool.false_ne_true, if_pos hneg, if_neg hmin]
  rfl

end Sys2Proof

namespace Sys2Proof.Machine

/-! ### ABS, NEG, SQRT and POWI on a clean block -/

/-- On a clean block with a well-formed VA, ABS writes Abs of VA to VQ (R161). -/
theorem exec_abs {s : State} (hs : s.Clean) (hw : s.va.wf = true) :
    exec .abs s = .next { s with vq := absOp s.va } := by
  rw [exec, execAbs, hw]
  exact commandFrame_ready hs

/-- On a clean block with a well-formed VA, NEG writes Neg of VA to VQ (R163). -/
theorem exec_neg {s : State} (hs : s.Clean) (hw : s.va.wf = true) :
    exec .neg s = .next { s with vq := negOp s.va } := by
  rw [exec, execNeg, hw]
  exact commandFrame_ready hs

/-- On a clean block with a well-formed VA, SQRT writes Sqrt of VA to VQ (R167). -/
theorem exec_sqrt {s : State} (hs : s.Clean) (hw : s.va.wf = true) :
    exec .sqrt s = .next { s with vq := sqrtOp s.va } := by
  rw [exec, execSqrt, hw]
  exact commandFrame_ready hs

/-- On a clean block with a well-formed VA, POWI writes PowInt of VA and N to VQ (R171). -/
theorem exec_powi {s : State} (hs : s.Clean) (hw : s.va.wf = true) :
    exec .powi s = .next { s with vq := powOp s.va (sint s.n) } := by
  rw [exec, execPowi, hw]
  exact commandFrame_ready hs

/-- Settles O49: each special case of Sqrt is one case of the chain, and the root of the last one is the floor root
because the radicand is below `2^256`. -/
theorem sqrtIsFloorRoot : Obligations.SqrtIsFloorRoot := by
  intro s hs hw
  refine ⟨_, exec_sqrt hs hw, ?_⟩
  simp only [← Dec.isError_iff, ← Dec.isZero_iff_coef, ← Dec.isNeg_iff]
  rcases sqrtOp_cases s.va with ⟨error, e⟩ | ⟨finite, zero, e⟩ | ⟨finite, nonzero, neg, e⟩ |
    ⟨finite, nonzero, nonneg, unit, e⟩ | ⟨finite, nonzero, nonneg, other, e⟩
  · rwa [if_pos error]
  · simp only [finite, zero, Bool.false_eq_true, if_false, if_true]
    exact e
  · simp only [finite, nonzero, neg, Bool.false_eq_true, if_false, if_true]
    exact e
  · simp only [finite, nonzero, nonneg, unit, Bool.false_eq_true, if_false, if_true]
    exact e
  · simpa only [finite, nonzero, nonneg, other, Bool.false_eq_true, if_false] using sqrtRoot_spec _ _ e

/-- Settles O51: POWI is one command frame around PowInt, and each case of the rule is one lemma about
PowInt. -/
theorem powiFollowsTheRecursion : Obligations.PowiFollowsTheRecursion := by
  refine ⟨fun s hs hw => exec_powi hs hw, fun x n _ hmax => ?_⟩
  cases he : x.isError with
  | true => rw [if_pos rfl, powOp_of_isError he]
  | false =>
    rw [if_neg Bool.false_ne_true]
    split_ifs with hmin hneg h0 h1 heven
    · rw [hmin, powOp_min he]
    · exact powOp_of_neg he hneg hmin
    · rw [h0, powOp_zero he]
    · rw [h1, powOp_one he]
    · rw [powOp_square he (by omega) (by omega), if_pos heven]
    · rw [powOp_square he (by omega) (by omega), if_neg heven]

/-- Settles O47: Abs by the error test. -/
theorem absClearsTheSign : Obligations.AbsClearsTheSign := by
  intro s hs hw
  rw [exec_abs hs hw]
  simp only [← Dec.isError_iff]
  cases he : s.va.isError with
  | true => rw [if_pos rfl, absOp_of_isError he]
  | false => rw [if_neg Bool.false_ne_true, absOp_of_finite he, Dec.positive]

/-- Settles O48: Neg by the operand's state, and a second NEG, whose operand is well-formed, undoes the first. -/
theorem negTogglesTheSign : Obligations.NegTogglesTheSign := by
  intro s hs hw
  refine ⟨_, exec_neg hs hw, negOp_eq _, ?_⟩
  have again := exec_neg (s := { s with va := negOp s.va }) hs (negOp_wf hw)
  rwa [negOp_negOp] at again

end Sys2Proof.Machine

/-! ## The rounder (spec/45_rounding.md)

Each mode's increment condition (R183), and what the eight commands deliver where digits are dropped (R180). -/

namespace Sys2Proof

/-- The rounding command of each mode (R184 to R191). -/
def RoundMode.instr (p : ℕ) : RoundMode → Instr
  | .down => .rdown p
  | .up => .rup p
  | .towardZero => .rtz p
  | .awayFromZero => .rafz p
  | .halfTowardZero => .rhtz p
  | .halfAwayFromZero => .rhafz p
  | .bank => .rbank p
  | .trunc => .trunc p

/-! ### The increment condition -/

section
variable (q r f : ℕ) (negative : Bool)

theorem roundInc_down : roundInc .down q r f negative = true ↔ negative = true ∧ 0 < r := by
  rw [roundInc, Bool.and_eq_true, decide_eq_true_iff]

theorem roundInc_up : roundInc .up q r f negative = true ↔ negative = false ∧ 0 < r := by
  rw [roundInc, Bool.and_eq_true, Bool.not_eq_true', decide_eq_true_iff]

theorem roundInc_towardZero : roundInc .towardZero q r f negative = true ↔ False :=
  iff_of_false Bool.false_ne_true id

theorem roundInc_awayFromZero : roundInc .awayFromZero q r f negative = true ↔ 0 < r :=
  decide_eq_true_iff

theorem roundInc_halfTowardZero : roundInc .halfTowardZero q r f negative = true ↔ f / 2 < r :=
  decide_eq_true_iff

theorem roundInc_halfAwayFromZero : roundInc .halfAwayFromZero q r f negative = true ↔ f / 2 ≤ r :=
  decide_eq_true_iff

theorem roundInc_bank : roundInc .bank q r f negative = true ↔ f / 2 < r ∨ (r = f / 2 ∧ q % 2 = 1) :=
  decide_eq_true_iff

theorem roundInc_trunc : roundInc .trunc q r f negative = true ↔ False :=
  iff_of_false Bool.false_ne_true id

end

/-- A finite value that is not Negative is Positive (R23, R24). -/
theorem Dec.isNeg_eq_false_iff {v : Dec} (h : v.isError = false) : v.isNeg = false ↔ v.state = 0 := by
  rw [Bool.eq_false_iff, ne_eq, Dec.isNeg_iff]
  rcases Dec.state_of_not_isError h with e | e <;> rw [e] <;> decide

/-- A finite value with more than `p` places rounds to its quotient by the factor, one more where the mode's
condition `inc` holds (R180). -/
theorem roundOp_of_lt {mode : RoundMode} {v : Dec} {p : ℕ} (hv : v.isError = false) (hp : p < v.exp.toNat)
    {inc : Prop} [Decidable inc]
    (hinc : roundInc mode (v.coef.toNat / 10 ^ (v.exp.toNat - p)) (v.coef.toNat % 10 ^ (v.exp.toNat - p))
      (10 ^ (v.exp.toNat - p)) v.isNeg = true ↔ inc) :
    roundOp mode v p = Dec.ofNat (if inc then v.coef.toNat / 10 ^ (v.exp.toNat - p) + 1
      else v.coef.toNat / 10 ^ (v.exp.toNat - p)) p v.state := by
  rcases roundOp_cases mode v p with ⟨error, -⟩ | ⟨-, hle, -⟩ | ⟨-, -, e⟩
  · rw [hv] at error
    cases error
  · omega
  · rw [e]
    simp only [hinc]
    split <;> rfl

end Sys2Proof

namespace Sys2Proof.Machine

/-! ### The eight rounding commands on a clean block -/

/-- On a clean block with a well-formed VA, a rounding command writes VA rounded by its mode to VQ (R184 to
R191). -/
theorem exec_rounding (mode : RoundMode) (p : ℕ) {s : State} (hs : s.Clean) (hw : s.va.wf = true) :
    exec (mode.instr p) s = .next { s with vq := roundOp mode s.va p } := by
  have frame : exec (mode.instr p) s = commandFrame s s.va.wf (s.setVQ (roundOp mode s.va p)) := by
    cases mode <;> rfl
  rw [frame, hw]
  exact commandFrame_ready hs

/-- Settles O53: all eight commands are one frame around Round, and each mode's condition is its lemma above. -/
theorem roundingIncrementsByItsMode : Obligations.RoundingIncrementsByItsMode := by
  rintro s p ⟨hs, hfin⟩ hp f q r h out
  obtain ⟨he, hw⟩ := s.va.finite_iff.1 hfin
  have delivers (mode : RoundMode) {inc : Prop} [Decidable inc]
      (hinc : roundInc mode q r f s.va.isNeg = true ↔ inc) : exec (mode.instr p) s = out inc := by
    rw [exec_rounding mode p hs hw, roundOp_of_lt he hp hinc]
    rfl
  exact ⟨delivers .down ((roundInc_down ..).trans (and_congr_left' s.va.isNeg_iff)),
    delivers .up ((roundInc_up ..).trans (and_congr_left' (Dec.isNeg_eq_false_iff he))),
    delivers .towardZero (roundInc_towardZero ..), delivers .awayFromZero (roundInc_awayFromZero ..),
    delivers .halfTowardZero (roundInc_halfTowardZero ..), delivers .halfAwayFromZero (roundInc_halfAwayFromZero ..),
    delivers .bank (roundInc_bank ..), delivers .trunc (roundInc_trunc ..)⟩

end Sys2Proof.Machine

/-! ## FROMI and the integer forms (spec/46_int64_forms.md)

The conversion keeps the integer's sign and magnitude at exponent 0 (R200), and each `*I` command is one frame around
the operation of its register twin (R202). -/

namespace Sys2Proof

/-! ### The conversion of an integer -/

/-- The signed coefficient of the converted integer is the integer (R200). -/
theorem fromInt64_signed {i : ℤ} (h : i.natAbs ≤ 2 ^ 63) : (fromInt64 i).signed = i := by
  obtain ⟨magnitude, -, sign⟩ := fromInt64_spec i h
  rw [Dec.signed, magnitude, sign]
  by_cases neg : i < 0
  · rw [if_pos neg, if_pos (by decide)]
    omega
  · rw [if_neg neg, if_neg (by decide)]
    omega

/-- The quantity of the converted integer is the integer (R200). -/
theorem fromInt64_val {i : ℤ} (h : i.natAbs ≤ 2 ^ 63) : (fromInt64 i).val = i := by
  obtain ⟨-, unscaled, -⟩ := fromInt64_spec i h
  rw [Dec.val_eq_signed_div, fromInt64_signed h, unscaled]
  exact div_one _

end Sys2Proof

namespace Sys2Proof.Machine

/-- N = 0 converts to the constant `Zero` (R27, R200). -/
theorem State.nOperand_of_n_eq_zero {s : State} (h : s.n = 0) : s.nOperand = ⟨0, 0, 0⟩ := by
  rw [State.nOperand, h]
  decide

/-! ### FROMI, ADDI, SUBI and MULI on a clean block -/

/-- On a clean block FROMI writes the converted N to VQ, whatever VA and VB hold (R201). -/
theorem exec_fromi {s : State} (hs : s.Clean) : exec .fromi s = .next { s with vq := s.nOperand } :=
  commandFrame_ready hs

/-- ADDI is Add of VA and the converted N, whatever VB holds (R203). -/
theorem exec_addi {s : State} (hs : s.Clean) (hw : s.va.wf = true) :
    exec .addi s = .next { s with vq := addOp s.va s.nOperand } := by
  rw [exec, execAddi, hw]
  exact commandFrame_ready hs

/-- SUBI is Sub of VA and the converted N, whatever VB holds (R204). -/
theorem exec_subi {s : State} (hs : s.Clean) (hw : s.va.wf = true) :
    exec .subi s = .next { s with vq := subOp s.va s.nOperand } := by
  rw [exec, execSubi, hw]
  exact commandFrame_ready hs

/-- MULI is Mul of VA and the converted N, whatever VB holds (R205). -/
theorem exec_muli {s : State} (hs : s.Clean) (hw : s.va.wf = true) :
    exec .muli s = .next { s with vq := mulOp s.va s.nOperand } := by
  rw [exec, execMuli, hw]
  exact commandFrame_ready hs

/-- Settles O57: FROMI delivers the converted N, whose magnitude, sign and quantity are those of `sint(N)`, at most
`2^63` in magnitude. -/
theorem fromiConvertsExactly : Obligations.FromiConvertsExactly := by
  intro s hs
  have bound := sint_natAbs_le s.n
  obtain ⟨magnitude, unscaled, sign⟩ := fromInt64_spec (sint s.n) bound
  have small : s.nOperand.coef.toNat < 2 ^ 64 := by
    rw [State.nOperand, magnitude]
    omega
  exact ⟨s.nOperand, exec_fromi hs, fromInt64_val bound, unscaled, magnitude, small, sign,
    State.nOperand_of_n_eq_zero⟩

/-- Settles O58: a block with the converted N in VB is ready for the register commands, since that record is
well-formed, and both forms of a command are one operation on the same two operands. -/
theorem integerFormsEqualTheirTwins : Obligations.IntegerFormsEqualTheirTwins := by
  intro s hs hw
  have twin : State.Ready { s with vb := s.nOperand } := ⟨hs, hw, fromInt64_wf _⟩
  exact ⟨s.nOperand, exec_fromi hs, ⟨_, exec_addi hs hw, exec_add twin⟩, ⟨_, exec_subi hs hw, exec_sub twin⟩,
    ⟨_, exec_muli hs hw, exec_mul twin⟩, ⟨_, exec_divi hs hw, exec_div twin⟩, ⟨_, exec_modi hs hw, exec_mod twin⟩,
    ⟨_, _, exec_quoremi hs hw, exec_quorem twin⟩⟩

end Sys2Proof.Machine

/-! ## Exceptional conditions (spec/60_exceptions.md)

While a fault is latched a host action other than the reset leaves the latch and the registers as they are (R228, R229).
An error operand is the result of the command that reads it, VA before VB (R222). -/

namespace Sys2Proof.Machine

/-! ### Host actions while a fault is latched -/

/-- With a fault latched, a write is refused before it is examined (R229). -/
theorem hostWrite_of_latched (idx : RegIndex) (data : Image) {s : State} (hs : ¬s.Clean) :
    hostWrite idx data s = .next s :=
  if_pos ((State.faulted_eq_true s).2 hs)

/-- With a fault latched, a read returns its value and does nothing else, even where it would raise ACCESS (R228). -/
theorem hostRead_of_latched (idx : RegIndex) {s : State} (hs : ¬s.Clean) :
    hostRead idx s = { s with replies := s.replies ++ [(s.readable idx).getD 0] } := by
  rw [hostRead_eq, if_neg (not_and_of_not_right _ hs)]

/-- With a fault latched, the step of a write drops the write from the queue (R229). -/
theorem step_write_of_latched {s : State} {rest : List HostAction} {idx : RegIndex} {data : Image} (hs : ¬s.Clean)
    (h : s.pending = .write idx data :: rest) : step s = .next { s with pending := rest } := by
  rw [step_of_pending h]
  exact hostWrite_of_latched idx data hs

/-- With a fault latched, the step of a read hands back the register's value and leaves every register (R228). -/
theorem step_read_of_latched {s : State} {rest : List HostAction} {idx : RegIndex} (hs : ¬s.Clean)
    (h : s.pending = .read idx :: rest) :
    step s = .next { s with pending := rest, replies := s.replies ++ [(s.readable idx).getD 0] } := by
  rw [step_of_pending h]
  exact congrArg _ (hostRead_of_latched idx (s := { s with pending := rest }) hs)

/-- With nothing pending a step changes nothing (log entry 1). -/
theorem step_of_idle {s : State} (h : s.pending = []) : step s = .next s := by
  rw [step, h]

/-- Settles O20: the latch test comes before any other of a write, and a read raises no second fault. -/
theorem latchedFaultRefusesWrites : Obligations.LatchedFaultRefusesWrites :=
  fun _ _ hs => ⟨fun _ _ h => step_write_of_latched hs h, fun _ h => ⟨_, step_read_of_latched hs h⟩⟩

/-- Settles O21: by the host's next action, if any. Only the reset does more than leave the queue and reply. -/
theorem firstFaultWinsUntilReset : Obligations.FirstFaultWinsUntilReset := by
  intro s t hs h
  cases hp : s.pending with
  | nil =>
    rw [step_of_idle hp] at h
    cases h
    exact .inr ⟨rfl, rfl, rfl, rfl, rfl, rfl⟩
  | cons action rest =>
    cases action with
    | read idx =>
      rw [step_read_of_latched hs hp] at h
      cases h
      exact .inr ⟨rfl, rfl, rfl, rfl, rfl, rfl⟩
    | write idx data =>
      rw [step_write_of_latched hs hp] at h
      cases h
      exact .inr ⟨rfl, rfl, rfl, rfl, rfl, rfl⟩
    | reset => exact .inl ⟨rest, rfl⟩

end Sys2Proof.Machine

namespace Sys2Proof

/-! ### Operations on an error operand -/

/-- Sqrt of an error value is that value (R165). -/
theorem sqrtOp_of_isError {v : Dec} (h : v.isError = true) : sqrtOp v = v :=
  if_pos h

/-- An error value is rounded to itself (R180). -/
theorem roundOp_of_isError (mode : RoundMode) {v : Dec} (p : ℕ) (h : v.isError = true) : roundOp mode v p = v :=
  if_pos h

/-- Every operation of two operands delivers the record `v` on `a` and `b`, QuoRem twice (R111, R222). -/
structure Absorbs (a b v : Dec) : Prop where
  add : addOp a b = v
  sub : subOp a b = v
  mul : mulOp a b = v
  div : divOp a b = v
  quoRem : quoRemOp a b = (v, v)

/-- Mod delivers what QuoRem delivers twice (R150). -/
theorem Absorbs.mod {a b v : Dec} (h : Absorbs a b v) : modOp a b = v := by
  rw [modOp, h.quoRem]

/-- An error in the left operand is every operation's result, whatever the right one holds (R222). -/
theorem absorbs_left {a : Dec} (b : Dec) (ha : a.isError = true) : Absorbs a b a where
  add := shortCircuit_left id _ _ ha
  sub := shortCircuit_left id _ _ ha
  mul := shortCircuit_left id _ _ ha
  div := shortCircuit_left id _ _ ha
  quoRem := shortCircuit_left both _ _ ha

/-- After a finite left operand, an error in the right one is every operation's result (R222). -/
theorem absorbs_right {a b : Dec} (ha : a.isError = false) (hb : b.isError = true) : Absorbs a b b where
  add := shortCircuit_right id _ ha hb
  sub := shortCircuit_right id _ ha hb
  mul := shortCircuit_right id _ ha hb
  div := shortCircuit_right id _ ha hb
  quoRem := shortCircuit_right both _ ha hb

end Sys2Proof

namespace Sys2Proof.Machine

/-! ### Commands on an error operand -/

/-- A command of VA and VB writes the record its operands are absorbed to, to VR too if it is QUOREM (R222). -/
theorem exec_of_absorbs {i : Instr} {s : State} {v : Dec} (hs : s.Ready) (h : Absorbs s.va s.vb v)
    (hi : i ∈ [Instr.add, .sub, .mul, .div, .mod, .quorem]) :
    exec i s = .next { s with vq := v, vr := if i = .quorem then v else s.vr } := by
  simp only [List.mem_cons, List.not_mem_nil, or_false] at hi
  rcases hi with rfl | rfl | rfl | rfl | rfl | rfl
  · rw [exec_add hs, h.add]; rfl
  · rw [exec_sub hs, h.sub]; rfl
  · rw [exec_mul hs, h.mul]; rfl
  · rw [exec_div hs, h.div]; rfl
  · rw [exec_mod hs, h.mod]; rfl
  · rw [exec_quorem hs, h.quoRem]; rfl

/-- Every command that reads VA writes an error VA to VQ as it is, QUOREM and QUOREMI to VR too (R222). -/
theorem exec_of_error_va {i : Instr} {s : State} (hs : s.Ready) (hi : i ≠ .fromi) (ha : s.va.isError = true) :
    exec i s = .next { s with vq := s.va, vr := if i = .quorem ∨ i = .quoremi then s.va else s.vr } := by
  have ⟨clean, hw, _⟩ := hs
  have pair : Absorbs s.va s.vb s.va := absorbs_left _ ha
  have int : Absorbs s.va s.nOperand s.va := absorbs_left _ ha
  have rounded (mode : RoundMode) (p : ℕ) : exec (mode.instr p) s = .next { s with vq := s.va } := by
    rw [exec_rounding mode p clean hw, roundOp_of_isError mode p ha]
  cases i with
  | fromi => exact absurd rfl hi
  | canon => rw [exec_canon clean hw, Dec.canonical_of_isError ha]; rfl
  | abs => rw [exec_abs clean hw, absOp_of_isError ha]; rfl
  | neg => rw [exec_neg clean hw, negOp_of_isError ha]; rfl
  | sqrt => rw [exec_sqrt clean hw, sqrtOp_of_isError ha]; rfl
  | powi => rw [exec_powi clean hw, powOp_of_isError ha]; rfl
  | add | sub | mul | div | mod | quorem => exact exec_of_absorbs hs pair (by decide)
  | addi => rw [exec_addi clean hw, int.add]; rfl
  | subi => rw [exec_subi clean hw, int.sub]; rfl
  | muli => rw [exec_muli clean hw, int.mul]; rfl
  | divi => rw [exec_divi clean hw, int.div]; rfl
  | modi => rw [exec_modi clean hw, int.mod]; rfl
  | quoremi => rw [exec_quoremi clean hw, int.quoRem]; rfl
  | rdown p => exact rounded .down p
  | rup p => exact rounded .up p
  | rtz p => exact rounded .towardZero p
  | rafz p => exact rounded .awayFromZero p
  | rhtz p => exact rounded .halfTowardZero p
  | rhafz p => exact rounded .halfAwayFromZero p
  | rbank p => exact rounded .bank p
  | trunc p => exact rounded .trunc p

/-- Settles O29: VA by `exec_of_error_va`, then VB by what the operations of two operands absorb. The converted N
is finite. -/
theorem errorOperandsAreAbsorbed : Obligations.ErrorOperandsAreAbsorbed :=
  fun _ _ hs => ⟨exec_of_error_va hs, fun hi ha hb => exec_of_absorbs hs (absorbs_right ha hb) hi,
    _, exec_fromi hs.1, fromInt64_isError _⟩

end Sys2Proof.Machine

/-! ## Steps and commands (spec/20_memory.md, spec/60_exceptions.md, spec/70_reset_and_hazards.md)

The reset action (R250), which steps complete (R257) and which raise a fault (R227), and what a command reads and
writes (R39, R73, R110). -/

namespace Sys2Proof.Machine

/-! ### The reset action and the invariant -/

/-- The step of the reset action: every register and the latch to zero, whatever they held (R250). -/
theorem step_of_reset {s : State} {rest : List HostAction} (h : s.pending = .reset :: rest) :
    step s = .next { State.reset with pending := rest, replies := s.replies } :=
  step_of_pending h

/-- Settles O11: the step of the reset action is `step_of_reset`, and any other step keeps a latched fault's cause,
by O21. -/
theorem resetActionClearsEverything : Obligations.ResetActionClearsEverything := by
  refine ⟨fun s rest h => step_of_reset h, fun s t hs h ht => ?_⟩
  rcases firstFaultWinsUntilReset s t hs h with reset | ⟨keeps, -⟩
  · exact reset
  · exact absurd (keeps.symm.trans ht) hs

/-- Settles O12: the lemma that starts the invariant's induction. -/
theorem resetStateMeetsInvariant : Obligations.ResetStateMeetsInvariant :=
  State.reset_inv

/-! ### Every host action completes -/

/-- On well-formed operands every host write completes: only a command reads them, and it answers (R110, R257). -/
theorem hostWrite_completes (idx : RegIndex) (data : Image) {s : State} (ha : s.va.wf = true) (hb : s.vb.wf = true) :
    ∃ t, hostWrite idx data s = .next t := by
  rcases hostWrite_cases idx data s with
    ⟨-, e⟩ | ⟨-, -, e⟩ | ⟨-, -, e⟩ | ⟨-, e⟩ | ⟨-, c, e⟩ | ⟨-, i, -, e⟩
  case inr.inr.inr.inr.inr => rw [e]; exact exec_completes i ha hb
  all_goals exact ⟨_, e⟩

/-- Settles O14: an idle step, a read and the reset action always complete, and a write does on the well-formed
operands of the invariant. -/
theorem everyHostActionCompletes : Obligations.EveryHostActionCompletes := by
  rintro s ⟨ha, hb, -⟩
  cases hp : s.pending with
  | nil => exact ⟨s, step_of_idle hp⟩
  | cons action rest =>
    rw [step_of_pending hp]
    cases action with
    | read idx => exact ⟨_, rfl⟩
    | write idx data => exact hostWrite_completes idx data (s := { s with pending := rest }) ha hb
    | reset => exact ⟨_, rfl⟩

/-! ### Commands: what stops them and what they write -/

/-- With a fault latched, a command does nothing (R110, R229). -/
theorem exec_of_latched (i : Instr) {s : State} (hs : ¬s.Clean) : exec i s = .next s := by
  obtain ⟨ok, after, e, -⟩ := exec_frame i s
  rw [e, commandFrame_latched hs]

/-- Settles O26: a latched fault stops the command frame. -/
theorem latchedFaultStopsCommands : Obligations.LatchedFaultStopsCommands :=
  fun i _ hs => exec_of_latched i hs

/-- Settles O24: a command that answers leaves the state as it was, or writes VQ and VR alone. -/
theorem commandsPreserveOperands : Obligations.CommandsPreserveOperands := by
  intro i s t h
  rcases exec_next h with ⟨-, rfl⟩ | ⟨-, v, w, rfl, -, -⟩ <;> exact ⟨rfl, rfl, rfl, rfl, rfl, rfl⟩

/-- Settles O25: the frame of such a command writes back the VR it found. -/
theorem onlyQuotientRemainderWritesVR : Obligations.OnlyQuotientRemainderWritesVR := by
  intro i s t hq hqi h
  obtain ⟨ok, v, w, w', e, -, hw⟩ := exec_of_same_operands i (s := s) (s' := s) rfl rfl rfl
  rw [if_neg (not_or.2 ⟨hq, hqi⟩)] at hw
  rw [e] at h
  rcases commandFrame_next h with ⟨-, rfl⟩ | ⟨-, -, rfl⟩
  · rfl
  · exact hw.1

/-! ### Commands: what they read -/

/-- With no fault latched, a frame on a second clean state that asks the same of its operands answers when the first
does. -/
theorem commandFrame_transfer {s s' after t after' : State} {ok : Bool} (hs : s.Clean) (hs' : s'.Clean)
    (h : commandFrame s ok after = .next t) : t = after ∧ commandFrame s' ok after' = .next after' := by
  rcases commandFrame_next h with ⟨latched, -⟩ | ⟨-, rfl, e⟩
  · exact absurd hs latched
  · exact ⟨e, commandFrame_ready hs'⟩

/-- A command other than the six of two registers does the same whatever VB holds (R73, R202). -/
theorem exec_with_vb {i : Instr} {s t : State} (hs : s.Clean)
    (hi : i ∉ [Instr.add, .sub, .mul, .div, .mod, .quorem]) (v : Dec) (h : exec i s = .next t) :
    exec i { s with vb := v } = .next { t with vb := v } := by
  have hs' : State.Clean { s with vb := v } := hs
  cases i with
  | add | sub | mul | div | mod | quorem => exact absurd (by decide) hi
  | canon | abs | neg | sqrt | powi | fromi | addi | subi | muli | divi | modi | quoremi
  | rdown | rup | rtz | rafz | rhtz | rhafz | rbank | trunc =>
    obtain ⟨rfl, e⟩ := commandFrame_transfer hs hs' h
    exact e

/-- A command other than POWI, FROMI and the `*I` forms does the same whatever N holds (R73). -/
theorem exec_with_n {i : Instr} {s t : State} (hs : s.Clean)
    (hi : i ∉ [Instr.powi, .fromi, .addi, .subi, .muli, .divi, .modi, .quoremi]) (d : IntWord)
    (h : exec i s = .next t) : exec i { s with n := d } = .next { t with n := d } := by
  have hs' : State.Clean { s with n := d } := hs
  cases i with
  | powi | fromi | addi | subi | muli | divi | modi | quoremi => exact absurd (by decide) hi
  | canon | abs | neg | sqrt | add | sub | mul | div | mod | quorem
  | rdown | rup | rtz | rafz | rhtz | rhafz | rbank | trunc =>
    obtain ⟨rfl, e⟩ := commandFrame_transfer hs hs' h
    exact e

/-- Settles O28: the frame of a command and the results it writes are the same term whatever the unread register
holds. -/
theorem commandsReadTheirOperandsOnly : Obligations.CommandsReadTheirOperandsOnly := by
  intro i s t hs h
  refine ⟨fun hi v => exec_with_vb hs hi v h, fun hi d => exec_with_n hs hi d h, ?_⟩
  rintro rfl v
  rw [exec_fromi hs] at h
  cases h
  exact exec_fromi (s := { s with va := v }) hs

/-! ### Commands and faults in a step -/

/-- Settles O9: with no fault latched the write is decoded and executed. With one, the write is refused, and the
command does nothing either. -/
theorem stepRunsDecodedCommand : Obligations.StepRunsDecodedCommand := by
  intro s rest data i hp hd
  rw [step_of_pending hp, perform]
  by_cases hs : State.Clean { s with pending := rest }
  · rw [hostWrite_cmd_of_clean data hs, writeCommand_of_ok hd]
  · rw [hostWrite_of_latched _ _ hs, exec_of_latched i hs]

/-- Settles O17: N has 64 bits and takes what the port carries (log entry 5). -/
theorem integerWriteIsStored : Obligations.IntegerWriteIsStored := by
  intro s rest d hs hp
  rw [step_of_pending hp, perform, hostWrite_n_of_clean (s := { s with pending := rest }) _ hs,
    setWidth_port (by decide)]

/-- What any action that is performed on a clean block leaves: no fault latched, or every register as it was
(R227). -/
theorem perform_clean_or_registers {a : HostAction} {s t : State} (hs : s.Clean) (h : perform a s = .next t) :
    t.Clean ∨ (t.va = s.va ∧ t.vb = s.vb ∧ t.n = s.n ∧ t.vq = s.vq ∧ t.vr = s.vr) := by
  cases a with
  | read idx =>
    obtain ⟨d, f, e, -⟩ := hostRead_spec idx s
    rw [perform, e] at h
    cases h
    exact .inr ⟨rfl, rfl, rfl, rfl, rfl⟩
  | write idx data =>
    rw [perform] at h
    rcases hostWrite_cases idx data s with
      ⟨latched, -⟩ | ⟨-, -, e⟩ | ⟨-, -, e⟩ | ⟨-, e⟩ | ⟨-, c, e⟩ | ⟨-, i, -, e⟩
    case inl => exact absurd hs latched
    all_goals rw [e] at h
    case inr.inr.inr.inr.inr =>
      obtain ⟨-, -, -, latch, -⟩ := commandsPreserveOperands i s t h
      exact .inl (latch.trans hs)
    case inr.inr.inr.inr.inl =>
      cases h
      exact .inr ⟨rfl, rfl, rfl, rfl, rfl⟩
    all_goals
      cases h
      exact .inl hs
  | reset =>
    cases h
    exact .inl rfl

/-- Settles O22: an action that latches a fault leaves the registers, and a decodable word is executed, by O9, which
leaves the latch, by O24. -/
theorem faultingActionHasNoOtherEffect : Obligations.FaultingActionHasNoOtherEffect := by
  intro s t hs h ht
  constructor
  · cases hp : s.pending with
    | nil =>
      rw [step_of_idle hp] at h
      cases h
      exact absurd hs ht
    | cons action rest =>
      rw [step_of_pending hp] at h
      exact (perform_clean_or_registers (s := { s with pending := rest }) hs h).resolve_left ht
  · intro rest data i hp hd
    rw [stepRunsDecodedCommand s rest data i hp hd] at h
    obtain ⟨-, -, -, latch, -⟩ := commandsPreserveOperands i _ t h
    exact ht (latch.trans hs)

end Sys2Proof.Machine

/-! ## Written-out words and bytes (spec/20_memory.md, spec/30_encoding.md)

Single words against the table of R73, and the bytes of a serialised value register (R57). -/

namespace Sys2Proof

/-- Settles O5: the decoder evaluated on the eight words. -/
theorem writtenOutWordsDecode : Obligations.WrittenOutWordsDecode := by
  unfold Obligations.WrittenOutWordsDecode
  decide

/-- Byte `k` of a serialised register is its bits `8k+7 : 8k` (R57). -/
theorem bytesLE_getElem? {n count k : ℕ} (v : BitVec n) (h : k < count) :
    (bytesLE count v)[k]? = some (v.extractLsb' (8 * k) 8) := by
  rw [bytesLE, List.getElem?_map, List.getElem?_range h]
  rfl

/-- The low 16 bytes of an image are the coefficient's (R76). -/
theorem Dec.image_coef_byte (v : Dec) {k : ℕ} (h : k < 16) :
    v.image.extractLsb' (8 * k) 8 = v.coef.extractLsb' (8 * k) 8 := by
  have hc : v.image.extractLsb' 0 128 = v.coef := congrArg Dec.coef v.ofImage_image
  conv_rhs => rw [← hc]
  rw [BitVec.extractLsb'_extractLsb'_of_le (by omega)]

/-- Settles O7: bytes 0 to 15 of the image are the coefficient's, byte 16 is the exponent field and byte 17 the
state field. -/
theorem serialisedRecordIsLittleEndian : Obligations.SerialisedRecordIsLittleEndian := by
  intro v
  refine ⟨by simp [bytesLE], fun k hk => ?_, ?_, ?_⟩
  · rw [bytesLE_getElem? _ (by omega), v.image_coef_byte hk]
  · rw [bytesLE_getElem? _ (by decide)]
    exact congrArg (fun r => some r.exp) v.ofImage_image
  · rw [bytesLE_getElem? _ (by decide)]
    exact congrArg (fun r => some r.state) v.ofImage_image

end Sys2Proof

/-! ## The quantity a rounding delivers (spec/45_rounding.md, R192)

A finite value's magnitude in units of `10^-p` is the coefficient's quotient by the factor of R180 plus the part the
remainder stands for. Each mode's condition on the remainder (R183) is a condition on that part, so the magnitude a
mode delivers is a floor or a ceiling of the value's own. -/

namespace Sys2Proof

/-! ### Floors and ceilings of a number and a part of one -/

section
variable (q : ℕ) {t : ℚ} (h0 : 0 ≤ t) (h1 : t < 1)
include h0 h1

theorem floor_natCast_add : ⌊(q : ℚ) + t⌋ = q := by
  rw [Int.floor_eq_iff]
  push_cast
  constructor <;> linarith

theorem ceil_natCast_add : ⌈(q : ℚ) + t⌉ = if 0 < t then (q : ℤ) + 1 else q := by
  rw [Int.ceil_eq_iff]
  split_ifs <;> push_cast <;> constructor <;> linarith

theorem ceil_natCast_add_sub_half : ⌈(q : ℚ) + t - 1 / 2⌉ = if 1 / 2 < t then (q : ℤ) + 1 else q := by
  rw [Int.ceil_eq_iff]
  split_ifs <;> push_cast <;> constructor <;> linarith

theorem floor_natCast_add_half : ⌊(q : ℚ) + t + 1 / 2⌋ = if 1 / 2 ≤ t then (q : ℤ) + 1 else q := by
  rw [Int.floor_eq_iff]
  split_ifs <;> push_cast <;> constructor <;> linarith

end

/-! ### A magnitude in units of the last place kept -/

/-- The magnitude of a quantity is the coefficient at the record's exponent (R13). -/
theorem Dec.abs_val (v : Dec) : |v.val| = v.coef.toNat / 10 ^ v.exp.toNat := by
  have hpow : (0 : ℚ) < 10 ^ v.exp.toNat := by positivity
  rw [v.val_eq_signed_div, abs_div, abs_of_pos hpow, ← Int.cast_abs, Int.abs_eq_natAbs, v.signed_natAbs]
  rfl

/-- A quantity is its magnitude with the record's sign (R13). -/
theorem Dec.val_eq_abs (v : Dec) : v.val = if v.state = 1 then -|v.val| else |v.val| := by
  rw [v.abs_val, Dec.val]
  split <;> ring

/-- The coefficient's quotient by the factor of R180: the digits a rounding to `p` places keeps. -/
def Dec.kept (v : Dec) (p : ℕ) : ℕ := v.coef.toNat / 10 ^ (v.exp.toNat - p)

/-- The part of a unit of the last place kept that the dropped digits stand for (R180). -/
def Dec.dropped (v : Dec) (p : ℕ) : ℚ :=
  (v.coef.toNat % 10 ^ (v.exp.toNat - p) : ℕ) / (10 ^ (v.exp.toNat - p) : ℕ)

theorem Dec.dropped_nonneg (v : Dec) (p : ℕ) : 0 ≤ v.dropped p := by
  unfold Dec.dropped
  positivity

theorem Dec.dropped_lt_one (v : Dec) (p : ℕ) : v.dropped p < 1 := by
  have factor : 0 < 10 ^ (v.exp.toNat - p) := by positivity
  rw [Dec.dropped, div_lt_one (by exact_mod_cast factor), Nat.cast_lt]
  exact Nat.mod_lt _ factor

/-- The magnitude in units of `10^-p` is what is kept and what is dropped. -/
theorem Dec.abs_val_mul_pow {v : Dec} {p : ℕ} (hp : p < v.exp.toNat) :
    |v.val| * 10 ^ p = v.kept p + v.dropped p := by
  obtain ⟨k, hk⟩ := Nat.exists_eq_add_of_le hp.le
  have division : (v.coef.toNat : ℚ) = (10 ^ k : ℕ) * (v.coef.toNat / 10 ^ k : ℕ) + (v.coef.toNat % 10 ^ k : ℕ) := by
    exact_mod_cast (Nat.div_add_mod _ _).symm
  rw [v.abs_val, Dec.kept, Dec.dropped, hk, Nat.add_sub_cancel_left, division, pow_add]
  push_cast
  field_simp

/-! ### The conditions of R183 on the dropped part -/

section
variable {v : Dec} {p : ℕ} (hp : p < v.exp.toNat)

theorem Dec.remainder_pos_iff : 0 < v.coef.toNat % 10 ^ (v.exp.toNat - p) ↔ 0 < v.dropped p := by
  rw [Dec.dropped, div_pos_iff_of_pos_right (by positivity), Nat.cast_pos]

include hp

/-- A factor of at least ten is twice its half. -/
theorem two_mul_half_factor : 2 * (10 ^ (v.exp.toNat - p) / 2) = 10 ^ (v.exp.toNat - p) :=
  Nat.mul_div_cancel' (dvd_pow (by decide) (by omega))

theorem Dec.half_lt_remainder_iff :
    10 ^ (v.exp.toNat - p) / 2 < v.coef.toNat % 10 ^ (v.exp.toNat - p) ↔ 1 / 2 < v.dropped p := by
  have double := two_mul_half_factor hp
  rw [Dec.dropped, div_lt_div_iff₀ two_pos (by positivity)]
  norm_cast
  omega

theorem Dec.half_le_remainder_iff :
    10 ^ (v.exp.toNat - p) / 2 ≤ v.coef.toNat % 10 ^ (v.exp.toNat - p) ↔ 1 / 2 ≤ v.dropped p := by
  have double := two_mul_half_factor hp
  rw [Dec.dropped, div_le_div_iff₀ two_pos (by positivity)]
  norm_cast
  omega

end

/-! ### The magnitude each mode delivers -/

/-- The coefficient a rounding delivers: what is kept, one more where the mode's condition holds (R180). -/
def roundedCoef (mode : RoundMode) (v : Dec) (p : ℕ) : ℕ :=
  v.kept p + if roundInc mode (v.kept p) (v.coef.toNat % 10 ^ (v.exp.toNat - p)) (10 ^ (v.exp.toNat - p)) v.isNeg
    then 1 else 0

section
variable {v : Dec} {p : ℕ} (hp : p < v.exp.toNat)
include hp

/-- The increment keeps the coefficient within 128 bits (R182). -/
theorem roundedCoef_lt (mode : RoundMode) : roundedCoef mode v p < 2 ^ 128 := by
  have factor : 10 ^ 1 ≤ 10 ^ (v.exp.toNat - p) := Nat.pow_le_pow_right (by decide) (by omega)
  have kept : v.kept p ≤ v.coef.toNat / 10 ^ 1 := Nat.div_le_div_left factor (by decide)
  have coef := v.coef.isLt
  unfold roundedCoef
  split <;> omega

theorem roundOp_eq_ofNat (mode : RoundMode) (hv : v.isError = false) :
    roundOp mode v p = Dec.ofNat (roundedCoef mode v p) p v.state := by
  rcases roundOp_cases mode v p with ⟨error, -⟩ | ⟨-, hle, -⟩ | ⟨-, -, e⟩
  · rw [hv] at error
    cases error
  · omega
  · exact e

theorem roundOp_coef (mode : RoundMode) (hv : v.isError = false) :
    (roundOp mode v p).coef.toNat = roundedCoef mode v p := by
  rw [roundOp_eq_ofNat hp mode hv, Dec.ofNat_coef_toNat (roundedCoef_lt hp mode)]

theorem roundOp_state (mode : RoundMode) (hv : v.isError = false) : (roundOp mode v p).state = v.state := by
  rw [roundOp_eq_ofNat hp mode hv, Dec.ofNat_state]

theorem roundOp_abs_val (mode : RoundMode) (hv : v.isError = false) :
    |(roundOp mode v p).val| = roundedCoef mode v p / 10 ^ p := by
  have exponent : p < 2 ^ 8 := hp.trans v.exp.isLt
  rw [Dec.abs_val, roundOp_coef hp mode hv, roundOp_eq_ofNat hp mode hv, Dec.ofNat_exp_toNat exponent]

/-- RTZ and TRUNC: toward zero (R186, R191). -/
theorem roundedCoef_towardZero : (roundedCoef .towardZero v p : ℤ) = ⌊|v.val| * 10 ^ p⌋ := by
  rw [Dec.abs_val_mul_pow hp, floor_natCast_add _ (v.dropped_nonneg p) (v.dropped_lt_one p)]
  rfl

/-- RAFZ: away from zero (R187). -/
theorem roundedCoef_awayFromZero : (roundedCoef .awayFromZero v p : ℤ) = ⌈|v.val| * 10 ^ p⌉ := by
  rw [Dec.abs_val_mul_pow hp, ceil_natCast_add _ (v.dropped_nonneg p) (v.dropped_lt_one p)]
  simp only [roundedCoef, roundInc_awayFromZero, Dec.remainder_pos_iff]
  split <;> simp

/-- RHTZ: to the nearest, a tie toward zero (R188). -/
theorem roundedCoef_halfTowardZero : (roundedCoef .halfTowardZero v p : ℤ) = ⌈|v.val| * 10 ^ p - 1 / 2⌉ := by
  rw [Dec.abs_val_mul_pow hp, ceil_natCast_add_sub_half _ (v.dropped_nonneg p) (v.dropped_lt_one p)]
  simp only [roundedCoef, roundInc_halfTowardZero, Dec.half_lt_remainder_iff hp]
  split <;> simp

/-- RHAFZ: to the nearest, a tie away from zero (R189). -/
theorem roundedCoef_halfAwayFromZero : (roundedCoef .halfAwayFromZero v p : ℤ) = ⌊|v.val| * 10 ^ p + 1 / 2⌋ := by
  rw [Dec.abs_val_mul_pow hp, floor_natCast_add_half _ (v.dropped_nonneg p) (v.dropped_lt_one p)]
  simp only [roundedCoef, roundInc_halfAwayFromZero, Dec.half_le_remainder_iff hp]
  split <;> simp

omit hp in
/-- RDOWN goes away from zero on Negative and toward zero on Positive (R184). -/
theorem roundedCoef_down :
    roundedCoef .down v p = if v.state = 1 then roundedCoef .awayFromZero v p else roundedCoef .towardZero v p := by
  simp only [roundedCoef, roundInc_down, roundInc_awayFromZero, roundInc_towardZero, Dec.isNeg_iff]
  by_cases h : v.state = 1
  · simp only [h, true_and, if_true]
  · simp only [h, false_and, if_false]

omit hp in
/-- RUP goes toward zero on Negative and away from zero on Positive (R185). -/
theorem roundedCoef_up :
    roundedCoef .up v p = if v.state = 1 then roundedCoef .towardZero v p else roundedCoef .awayFromZero v p := by
  simp only [roundedCoef, roundInc_up, roundInc_awayFromZero, roundInc_towardZero, ← Bool.not_eq_true, Dec.isNeg_iff]
  by_cases h : v.state = 1
  · simp only [h, not_true, false_and, if_true, if_false]
  · simp only [h, not_false_iff, true_and, if_false]

/-- RDOWN: the floor of the quantity (R184, R192). -/
theorem roundOp_down_val (hv : v.isError = false) : (roundOp .down v p).val = (⌊v.val * 10 ^ p⌋ : ℚ) / 10 ^ p := by
  rw [Dec.val_eq_abs, roundOp_abs_val hp _ hv, roundOp_state hp _ hv, roundedCoef_down, v.val_eq_abs]
  split_ifs
  · rw [neg_mul, Int.floor_neg, ← roundedCoef_awayFromZero hp]
    push_cast
    ring
  · rw [← roundedCoef_towardZero hp]
    rfl

/-- RUP: the ceiling of the quantity (R185, R192). -/
theorem roundOp_up_val (hv : v.isError = false) : (roundOp .up v p).val = (⌈v.val * 10 ^ p⌉ : ℚ) / 10 ^ p := by
  rw [Dec.val_eq_abs, roundOp_abs_val hp _ hv, roundOp_state hp _ hv, roundedCoef_up, v.val_eq_abs]
  split_ifs
  · rw [neg_mul, Int.ceil_neg, ← roundedCoef_towardZero hp]
    push_cast
    ring
  · rw [← roundedCoef_awayFromZero hp]
    rfl

/-- The error of a rounding: its coefficient against the magnitude in units of the last place kept. -/
theorem abs_roundOp_val_sub (mode : RoundMode) (hv : v.isError = false) :
    |(roundOp mode v p).val - v.val| = |(roundedCoef mode v p : ℚ) - v.kept p - v.dropped p| / 10 ^ p := by
  have hpow : (0 : ℚ) < 10 ^ p := by positivity
  have magnitudes : (roundedCoef mode v p : ℚ) - v.kept p - v.dropped p =
      (|(roundOp mode v p).val| - |v.val|) * 10 ^ p := by
    rw [sub_mul, Dec.abs_val_mul_pow hp, roundOp_abs_val hp mode hv]
    field_simp
    ring
  rw [magnitudes, abs_mul, abs_of_pos hpow, mul_div_cancel_right₀ _ hpow.ne', (roundOp mode v p).val_eq_abs, v.val_eq_abs,
    roundOp_state hp mode hv]
  split_ifs
  · rw [abs_neg, abs_neg, abs_abs, abs_abs, ← abs_neg]
    ring_nf
  · rw [abs_abs, abs_abs]

/-- A mode increments only where something is dropped (R183). -/
theorem dropped_pos_of_roundInc {mode : RoundMode} {q : ℕ} {neg : Bool}
    (h : roundInc mode q (v.coef.toNat % 10 ^ (v.exp.toNat - p)) (10 ^ (v.exp.toNat - p)) neg = true) :
    0 < v.dropped p := by
  have half : 0 < 10 ^ (v.exp.toNat - p) / 2 := by
    have double := two_mul_half_factor hp
    have factor : 0 < 10 ^ (v.exp.toNat - p) := by positivity
    omega
  rw [← Dec.remainder_pos_iff]
  cases mode with
  | down => exact ((roundInc_down ..).1 h).2
  | up => exact ((roundInc_up ..).1 h).2
  | towardZero => exact ((roundInc_towardZero ..).1 h).elim
  | awayFromZero => exact (roundInc_awayFromZero ..).1 h
  | halfTowardZero => have := (roundInc_halfTowardZero ..).1 h; omega
  | halfAwayFromZero => have := (roundInc_halfAwayFromZero ..).1 h; omega
  | bank => have := (roundInc_bank ..).1 h; omega
  | trunc => exact ((roundInc_trunc ..).1 h).elim

/-- Every mode stays within one unit of the last place (R192). -/
theorem abs_roundOp_val_sub_lt (mode : RoundMode) (hv : v.isError = false) :
    |(roundOp mode v p).val - v.val| < 1 / 10 ^ p := by
  have lower := v.dropped_nonneg p
  have upper := v.dropped_lt_one p
  rw [abs_roundOp_val_sub hp mode hv, div_lt_div_iff_of_pos_right (by positivity), abs_lt, roundedCoef]
  split_ifs with inc
  · have pos := dropped_pos_of_roundInc hp inc
    push_cast
    constructor <;> linarith
  · push_cast
    constructor <;> linarith

/-- RBANK: one more than half a unit is dropped, or half a unit next to an odd coefficient (R190). -/
theorem roundedCoef_bank : roundedCoef .bank v p =
    v.kept p + if 1 / 2 < v.dropped p ∨ (v.dropped p = 1 / 2 ∧ v.kept p % 2 = 1) then 1 else 0 := by
  have tie : v.coef.toNat % 10 ^ (v.exp.toNat - p) = 10 ^ (v.exp.toNat - p) / 2 ↔ v.dropped p = 1 / 2 := by
    rw [le_antisymm_iff, le_antisymm_iff, ← not_lt, Dec.half_lt_remainder_iff hp, Dec.half_le_remainder_iff hp, not_lt]
  simp only [roundedCoef, roundInc_bank, Dec.half_lt_remainder_iff hp, tie]

/-- RBANK: to the nearest (R190, R192). -/
theorem abs_roundOp_bank_val_sub_le (hv : v.isError = false) :
    |(roundOp .bank v p).val - v.val| ≤ 1 / 2 / 10 ^ p := by
  have lower := v.dropped_nonneg p
  have upper := v.dropped_lt_one p
  rw [abs_roundOp_val_sub hp _ hv, div_le_div_iff_of_pos_right (by positivity), abs_le, roundedCoef_bank hp]
  split_ifs with inc
  · have half : 1 / 2 ≤ v.dropped p := inc.elim le_of_lt fun tie => tie.1.ge
    push_cast
    constructor <;> linarith
  · have half : v.dropped p ≤ 1 / 2 := not_lt.1 (not_or.1 inc).1
    push_cast
    constructor <;> linarith

/-- RBANK: a tie goes to the even coefficient (R190, R192). -/
theorem roundOp_bank_even_of_tie (hv : v.isError = false)
    (h : |(roundOp .bank v p).val - v.val| = 1 / 2 / 10 ^ p) : (roundOp .bank v p).coef.toNat % 2 = 0 := by
  have lower := v.dropped_nonneg p
  have upper := v.dropped_lt_one p
  rw [abs_roundOp_val_sub hp _ hv, div_left_inj' (by positivity), roundedCoef_bank hp] at h
  rw [roundOp_coef hp _ hv, roundedCoef_bank hp]
  split_ifs at h ⊢ with inc
  · have half : v.dropped p = 1 / 2 := by
      push_cast at h
      rw [abs_of_nonneg (by linarith)] at h
      linarith
    have odd : v.kept p % 2 = 1 := (inc.resolve_left half.not_gt).2
    omega
  · have half : v.dropped p = 1 / 2 := by
      push_cast at h
      rw [abs_of_nonpos (by linarith)] at h
      linarith
    have even : ¬v.kept p % 2 = 1 := fun odd => inc (.inr ⟨half, odd⟩)
    omega

end

/-- A finite value with at most `p` places is rounded to itself (R180). -/
theorem roundOp_of_le (mode : RoundMode) {v : Dec} {p : ℕ} (hp : v.exp.toNat ≤ p) : roundOp mode v p = v := by
  rcases roundOp_cases mode v p with ⟨-, e⟩ | ⟨-, -, e⟩ | ⟨-, hlt, -⟩
  · exact e
  · exact e
  · omega

/-- A rounding keeps the state (R180). -/
theorem roundOp_isError (mode : RoundMode) {v : Dec} (p : ℕ) (h : v.isError = false) :
    (roundOp mode v p).isError = false := by
  rcases roundOp_cases mode v p with ⟨-, e⟩ | ⟨-, -, e⟩ | ⟨-, -, e⟩ <;> rw [e] <;> exact h

end Sys2Proof

namespace Sys2Proof.Machine

/-- Settles O56: the two modes never increment, so the two frames are the same term. -/
theorem rtzIsTrunc : Obligations.RtzIsTrunc :=
  fun _ _ => rfl

/-- Settles O54: each of the eight commands is one frame around Round, which has nothing to drop. -/
theorem roundingIsIdempotent : Obligations.RoundingIsIdempotent := by
  rintro s p ⟨hs, hfin⟩ hp
  obtain ⟨-, hw⟩ := s.va.finite_iff.1 hfin
  have unchanged (mode : RoundMode) : exec (mode.instr p) s = .next { s with vq := s.va } := by
    rw [exec_rounding mode p hs hw, roundOp_of_le mode hp]
  simp only [List.forall_mem_cons, List.not_mem_nil, false_imp_iff, implies_true, and_true]
  exact ⟨unchanged .down, unchanged .up, unchanged .towardZero, unchanged .awayFromZero, unchanged .halfTowardZero,
    unchanged .halfAwayFromZero, unchanged .bank, unchanged .trunc⟩

/-- Settles O55: the commands deliver Round of VA by their modes, and each mode's quantity is its lemma above. -/
theorem roundedQuantityIsAsNamed : Obligations.RoundedQuantityIsAsNamed := by
  rintro s p ⟨hs, hfin⟩ hp
  obtain ⟨hv, hw⟩ := s.va.finite_iff.1 hfin
  have runs (mode : RoundMode) := exec_rounding mode p hs hw
  have record (mode : RoundMode) : (roundOp mode s.va p).isError = false ∧
      (roundOp mode s.va p).exp = BitVec.ofNat 8 p ∧ (roundOp mode s.va p).state = s.va.state ∧
      |(roundOp mode s.va p).val - s.va.val| < 1 / 10 ^ p := by
    refine ⟨roundOp_isError mode p hv, ?_, roundOp_state hp mode hv, abs_roundOp_val_sub_lt hp mode hv⟩
    rw [roundOp_eq_ofNat hp mode hv, Dec.ofNat_exp]
  have magnitude (mode : RoundMode) {m : ℤ} (hm : (roundedCoef mode s.va p : ℤ) = m) :
      |(roundOp mode s.va p).val| = (m : ℚ) / 10 ^ p := by
    rw [roundOp_abs_val hp mode hv, ← hm, Int.cast_natCast]
  refine ⟨_, _, _, _, _, _, _, _, ⟨runs .down, runs .up, runs .towardZero, runs .awayFromZero, runs .halfTowardZero,
    runs .halfAwayFromZero, runs .bank, runs .trunc⟩, ?_, roundOp_down_val hp hv, roundOp_up_val hp hv,
    magnitude .towardZero (roundedCoef_towardZero hp), magnitude .trunc (roundedCoef_towardZero hp),
    magnitude .awayFromZero (roundedCoef_awayFromZero hp), magnitude .halfTowardZero (roundedCoef_halfTowardZero hp),
    magnitude .halfAwayFromZero (roundedCoef_halfAwayFromZero hp), abs_roundOp_bank_val_sub_le hp hv,
    roundOp_bank_even_of_tie hp hv⟩
  simp only [List.forall_mem_cons, List.not_mem_nil, false_imp_iff, implies_true, and_true]
  exact ⟨record .down, record .up, record .towardZero, record .awayFromZero, record .halfTowardZero,
    record .halfAwayFromZero, record .bank, record .trunc⟩

end Sys2Proof.Machine

/-! ## Products (spec/42_mul.md, R133)

The exact product has the product of the quantities, and both phases of Mul treat their operands alike. -/

namespace Sys2Proof

theorem mulFits_comm (a b : Dec) : MulFits a b ↔ MulFits b a := by
  rw [MulFits, MulFits, Nat.add_comm, Nat.mul_comm]

theorem signOf_comm (a b : Dec) : signOf a b = signOf b a := by
  simp only [signOf, eq_comm]

theorem mulExact_comm (a b : Dec) : mulExact a b = mulExact b a := by
  rw [mulExact, mulExact, Nat.mul_comm, Nat.add_comm, signOf_comm]

theorem mulAttempt_comm {a b : Dec} (ha : a.isError = false) (hb : b.isError = false) :
    mulAttempt a b = mulAttempt b a := by
  rw [mulAttempt_eq ha hb, mulAttempt_eq hb ha, mulExact_comm]
  exact if_congr (mulFits_comm a b) rfl rfl

/-- Mul is commutative on finite operands, record for record (R133). -/
theorem mulOp_comm {a b : Dec} (ha : a.isError = false) (hb : b.isError = false) : mulOp a b = mulOp b a := by
  have retry : mulAttempt a.canonical b.canonical = mulAttempt b.canonical a.canonical :=
    mulAttempt_comm (by rwa [Dec.canonical_isError]) (by rwa [Dec.canonical_isError])
  rw [mulOp, mulOp, shortCircuit_finite _ _ ha hb, shortCircuit_finite _ _ hb ha, Bool.or_comm]
  unfold twoTier
  rw [mulAttempt_comm ha hb, retry]

/-- A sign code of R130 is no error marker. -/
theorem signOf_toNat_lt (a b : Dec) : (signOf a b).toNat < 2 := by
  unfold signOf
  split <;> decide

theorem mulExact_isError (a b : Dec) : (mulExact a b).isError = false :=
  (Dec.isError_eq_false_iff _).2 (signOf_toNat_lt a b)

/-- A product that fits has the product of the quantities (R133). -/
theorem mulExact_val {a b : Dec} (ha : a.isError = false) (hb : b.isError = false) (h : MulFits a b) :
    (mulExact a b).val = a.val * b.val := by
  obtain ⟨hexp, hcoef⟩ := h
  have coef : (mulExact a b).coef.toNat = a.coef.toNat * b.coef.toNat := Nat.mod_eq_of_lt hcoef
  have exponent : (mulExact a b).exp.toNat = a.exp.toNat + b.exp.toNat := Nat.mod_eq_of_lt (by omega)
  have sign : (mulExact a b).state = signOf a b := rfl
  rw [Dec.val, coef, exponent, sign, signOf, Dec.val, Dec.val, pow_add]
  rcases Dec.state_of_not_isError ha with sa | sa <;> rcases Dec.state_of_not_isError hb with sb | sb <;>
    simp [sa, sb, Dec.positive, Dec.negative] <;> field_simp

/-- Where Mul of finite operands is finite, it is exact (R133). -/
theorem mulOp_val {a b : Dec} (ha : a.isError = false) (hb : b.isError = false)
    (h : (mulOp a b).isError = false) : (mulOp a b).val = a.val * b.val := by
  by_cases h0 : a.coef = 0 ∨ b.coef = 0
  · have product : a.val * b.val = 0 := by
      rwa [mul_eq_zero, Dec.val_eq_zero_iff, Dec.val_eq_zero_iff, ← Dec.coef_eq_zero_iff, ← Dec.coef_eq_zero_iff]
    rw [mulOp_of_zero ha hb h0, product]
    exact Dec.zero.val_eq_zero_iff.2 rfl
  · refine (mulOp_threePhases ha hb h0).induct (fun r => r.isError = false → r.val = a.val * b.val)
      (fun fits _ => mulExact_val ha hb fits) (fun fits _ => ?_) (fun herr => ?_) h
    · rw [mulExact_val ?_ ?_ fits, Dec.canonical_val ha, Dec.canonical_val hb]
      · rwa [Dec.canonical_isError]
      · rwa [Dec.canonical_isError]
    · exact absurd herr (by decide)

end Sys2Proof

namespace Sys2Proof.Machine

/-- Settles O37: Mul is commutative, and exact where it does not overflow. -/
theorem multiplicationIsExactAndCommutative : Obligations.MultiplicationIsExactAndCommutative := by
  rintro s ⟨clean, hfa, hfb⟩
  obtain ⟨ha, hwa⟩ := s.va.finite_iff.1 hfa
  obtain ⟨hb, hwb⟩ := s.vb.finite_iff.1 hfb
  refine ⟨_, exec_mul ⟨clean, hwa, hwb⟩, ?_, mulOp_val ha hb⟩
  rw [mulOp_comm ha hb]
  exact exec_mul (s := { s with va := s.vb, vb := s.va }) ⟨clean, hwb, hwa⟩

end Sys2Proof.Machine

/-! ## The true quotient and the rebuilt dividend (spec/43_div.md, R152)

A quotient from either phase of Div is the quotient of the quantities, cut off at 19 places, so the quantities alone fix
it. A pair from either phase of QuoRem gives the dividend back by MUL and ADD: the scaled dividend fits 128 bits, and no
magnitude on the way is larger. -/

namespace Sys2Proof

/-! ### The true quotient, cut off -/

/-- What Div promises where it does not overflow: the quotient of the quantities truncated at 19 places, with the sign
of R142 (R152 (a)). -/
structure IsTruncatedQuotient (a b r : Dec) : Prop where
  coef_eq : (r.coef.toNat : ℤ) = ⌊|a.val| / |b.val| * 10 ^ 19⌋
  exp_eq : r.exp = 19
  state_eq : r.state = signOf a b

/-- A quotient that fits is the true quotient's magnitude, cut off (R143). -/
theorem divExact_coef {a b : Dec} (ha : a.exp.toNat ≤ 19) (hb0 : b.coef ≠ 0) (h : DivFits a b) :
    ((divExact a b).coef.toNat : ℤ) = ⌊|a.val| / |b.val| * 10 ^ 19⌋ := by
  obtain ⟨hn, -⟩ := h
  have coef : (divExact a b).coef.toNat = a.coef.toNat * 10 ^ (19 + b.exp.toNat - a.exp.toNat) / b.coef.toNat :=
    Nat.mod_eq_of_lt ((Nat.div_le_self _ _).trans_lt hn)
  have divisor : (b.coef.toNat : ℚ) ≠ 0 := by exact_mod_cast b.coef_eq_zero_iff.not.1 hb0
  have scale : (10 : ℚ) ^ (19 + b.exp.toNat - a.exp.toNat) * 10 ^ a.exp.toNat = 10 ^ 19 * 10 ^ b.exp.toNat := by
    rw [← pow_add, ← pow_add, Nat.sub_add_cancel (by omega)]
  have quotient : |a.val| / |b.val| * 10 ^ 19 =
      (a.coef.toNat * 10 ^ (19 + b.exp.toNat - a.exp.toNat) : ℕ) / (b.coef.toNat : ℚ) := by
    rw [a.abs_val, b.abs_val]
    push_cast
    field_simp
    linear_combination -(a.coef.toNat : ℚ) * scale
  rw [quotient, coef, Rat.floor_natCast_div_natCast, Int.natCast_div]

theorem divExact_isTruncatedQuotient {a b : Dec} (ha : a.exp.toNat ≤ 19) (hb0 : b.coef ≠ 0) (h : DivFits a b) :
    IsTruncatedQuotient a b (divExact a b) where
  coef_eq := divExact_coef ha hb0 h
  exp_eq := rfl
  state_eq := rfl

/-- The canonical forms have the values' own quotient. -/
theorem IsTruncatedQuotient.of_canonical {a b r : Dec} (ha : a.isError = false) (hb : b.isError = false)
    (h : IsTruncatedQuotient a.canonical b.canonical r) : IsTruncatedQuotient a b r where
  coef_eq := by rw [h.coef_eq, Dec.canonical_val ha, Dec.canonical_val hb]
  exp_eq := h.exp_eq
  state_eq := by simpa [signOf] using h.state_eq

/-- Div of finite nonzero operands overflows or is the truncated quotient (R152 (a)). -/
theorem divOp_overflow_or_isTruncatedQuotient {a b : Dec} (ha : a.finite = true) (hb : b.finite = true)
    (ha0 : a.coef ≠ 0) (hb0 : b.coef ≠ 0) :
    divOp a b = Dec.err Dec.overflow ∨ IsTruncatedQuotient a b (divOp a b) := by
  obtain ⟨hae, haw⟩ := a.finite_iff.1 ha
  obtain ⟨hbe, -⟩ := b.finite_iff.1 hb
  have hb0' : b.canonical.coef ≠ 0 := by
    rwa [Ne, Dec.coef_eq_zero_iff, Dec.canonical_coef_eq_zero_iff hbe, ← Dec.coef_eq_zero_iff]
  have exponent : a.exp.toNat ≤ 19 := Dec.exp_le_of_wf haw hae
  refine (divOp_threePhases hae hbe ha0 hb0).induct (fun r => r = Dec.err Dec.overflow ∨ IsTruncatedQuotient a b r)
    (fun fits => .inr (divExact_isTruncatedQuotient exponent hb0 fits)) (fun fits => .inr ?_) (.inl rfl)
  have exponent' : a.canonical.exp.toNat ≤ 19 := (Dec.canonical_spec hae).1.trans exponent
  exact (divExact_isTruncatedQuotient exponent' hb0' fits).of_canonical hae hbe

theorem divOp_isTruncatedQuotient {a b : Dec} (ha : a.finite = true) (hb : b.finite = true)
    (ha0 : a.coef ≠ 0) (hb0 : b.coef ≠ 0) (h : (divOp a b).isError = false) : IsTruncatedQuotient a b (divOp a b) := by
  refine (divOp_overflow_or_isTruncatedQuotient ha hb ha0 hb0).resolve_left fun overflow => ?_
  rw [overflow] at h
  exact absurd h (by decide)

/-- The quantities of nonzero operands fix the truncated quotient (R152 (b)). -/
theorem IsTruncatedQuotient.unique {a b a' b' r r' : Dec} (h : IsTruncatedQuotient a b r)
    (h' : IsTruncatedQuotient a' b' r') (hsign : signOf a b = signOf a' b') (ha : a.val = a'.val)
    (hb : b.val = b'.val) : r = r' := by
  apply Dec.eq_of_toNat_eq
  · have coef := h.coef_eq
    rw [ha, hb, ← h'.coef_eq] at coef
    exact_mod_cast coef
  · rw [h.exp_eq, h'.exp_eq]
  · rw [h.state_eq, h'.state_eq, hsign]

/-! ### Zero operands of Div -/

/-- A finite quotient of finite operands has a nonzero divisor (R140). -/
theorem divisor_ne_zero_of_divOp_finite {a b : Dec} (ha : a.isError = false) (hb : b.isError = false)
    (h : (divOp a b).isError = false) : b.coef ≠ 0 := by
  intro hb0
  rw [divOp, divisionChecks_of_ends _ _ (.inr (.inr (.inl hb0))), endedDivision, if_neg (by simp [ha]),
    if_neg (by simp [hb]), if_pos hb0] at h
  exact absurd h (by decide)

/-- A zero dividend over a finite nonzero divisor gives `Zero` (R140). -/
theorem divOp_of_zero_dividend {a b : Dec} (ha : a.isError = false) (hb : b.isError = false) (ha0 : a.coef = 0)
    (hb0 : b.coef ≠ 0) : divOp a b = Dec.zero := by
  rw [divOp, divisionChecks_of_ends _ _ (.inr (.inr (.inr ha0))), endedDivision, if_neg (by simp [ha]),
    if_neg (by simp [hb]), if_neg hb0]
  rfl

/-- Where Div does not overflow, the quantities fix its result (R152 (b)). -/
theorem divOp_eq_of_val_eq {a b a' b' : Dec} (ha : a.finite = true) (hb : b.finite = true) (ha' : a'.finite = true)
    (hb' : b'.finite = true) (hva : a.val = a'.val) (hvb : b.val = b'.val) (h : (divOp a b).isError = false)
    (h' : (divOp a' b').isError = false) : divOp a b = divOp a' b' := by
  obtain ⟨hae, -⟩ := a.finite_iff.1 ha
  obtain ⟨hbe, -⟩ := b.finite_iff.1 hb
  obtain ⟨hae', -⟩ := a'.finite_iff.1 ha'
  obtain ⟨hbe', -⟩ := b'.finite_iff.1 hb'
  have hb0 := divisor_ne_zero_of_divOp_finite hae hbe h
  have hb0' := divisor_ne_zero_of_divOp_finite hae' hbe' h'
  have zero : a.coef = 0 ↔ a'.coef = 0 := by
    rw [Dec.coef_eq_zero_iff, Dec.coef_eq_zero_iff, ← Dec.val_eq_zero_iff, ← Dec.val_eq_zero_iff, hva]
  by_cases ha0 : a.coef = 0
  · rw [divOp_of_zero_dividend hae hbe ha0 hb0, divOp_of_zero_dividend hae' hbe' (zero.1 ha0) hb0']
  · have nonzero {v : Dec} (hv : v.coef ≠ 0) : v.val ≠ 0 := v.val_eq_zero_iff.not.2 (v.coef_eq_zero_iff.not.1 hv)
    have signs : signOf a b = signOf a' b' := by
      rw [signOf, signOf, Dec.state_eq_of_val_eq hae hae' (nonzero ha0) hva,
        Dec.state_eq_of_val_eq hbe hbe' (nonzero hb0) hvb]
    exact (divOp_isTruncatedQuotient ha hb ha0 hb0 h).unique
      (divOp_isTruncatedQuotient ha' hb' (zero.not.1 ha0) hb0' h') signs hva hvb

/-! ### A divisor of exponent 0 -/

/-- Two attempts, one a component of the other on both pairs of operands, give results that are so too. -/
theorem twoTier_map {α β : Type} {att : Dec → Dec → Option α} {att' : Dec → Dec → Option β} (f : α → β) (ovf : α)
    {a b : Dec} (fast : att' a b = (att a b).map f)
    (retry : att' a.canonical b.canonical = (att a.canonical b.canonical).map f) :
    twoTier att' (f ovf) a b = f (twoTier att ovf a b) := by
  unfold twoTier
  rw [fast, retry]
  cases att a b with
  | some r => rfl
  | none => cases att a.canonical b.canonical <;> rfl

/-- The checks of a pair deliver the checks of its first component (R140, R148). -/
theorem divisionChecks_both_fst (a b : Dec) (rest : Dec × Dec) :
    (divisionChecks both a b rest).1 = divisionChecks id a b rest.1 := by
  unfold divisionChecks shortCircuit
  split_ifs <;> rfl

/-- At divisor exponent 0 both attempts scale the dividend alike (R143, R147). -/
theorem divAttempt_eq_quotient (a : Dec) {b : Dec} (hb : b.exp.toNat = 0) :
    divAttempt a b = (quoRemAttempt a b).map Prod.fst := by
  unfold divAttempt quoRemAttempt
  simp only [hb, Nat.add_zero, Nat.sub_zero]
  split_ifs <;> rfl

/-- For a divisor of exponent 0, Div is the quotient of QuoRem (R152 (f)). -/
theorem divOp_eq_quotient (a : Dec) {b : Dec} (hb : b.exp.toNat = 0) : divOp a b = (quoRemOp a b).1 := by
  have canonical : b.canonical = b := Dec.canonical_of_isCanonical (b.isCanonical_iff.2 (.inl hb))
  rw [divOp, quoRemOp, divisionChecks_both_fst]
  congr 1
  refine twoTier_map Prod.fst (both (Dec.err Dec.overflow)) (divAttempt_eq_quotient a hb) ?_
  rw [canonical]
  exact divAttempt_eq_quotient _ hb

/-! ### MUL and ADD within 128 bits -/

/-- Where the canonical operands fit, Mul is finite, whichever attempt it takes (R112). -/
theorem mulOp_finite_of_canonical_fits {a b : Dec} (ha : a.isError = false) (hb : b.isError = false)
    (h : MulFits a.canonical b.canonical) : (mulOp a b).isError = false := by
  by_cases h0 : a.coef = 0 ∨ b.coef = 0
  · rw [mulOp_of_zero ha hb h0]
    rfl
  · obtain ⟨fast, retry, -⟩ := mulOp_threePhases ha hb h0
    by_cases fits : MulFits a b
    · rw [fast fits]
      exact mulExact_isError _ _
    · rw [retry fits h]
      exact mulExact_isError _ _

theorem addExact_isError {a : Dec} (ha : a.isError = false) (b : Dec) : (addExact a b).isError = false := by
  rw [Dec.isError_eq_false_iff] at ha ⊢
  unfold addExact
  dsimp only
  split_ifs
  · decide
  · decide
  · exact ha
  · decide

/-- An aligned magnitude is the quantity's, in units of the aligned exponent (R116). -/
theorem alignedMag_eq_abs_val (v : Dec) {e : ℕ} (h : v.exp.toNat ≤ e) : (alignedMag v e : ℚ) = |v.val| * 10 ^ e := by
  obtain ⟨k, rfl⟩ := Nat.exists_eq_add_of_le h
  rw [alignedMag, v.abs_val, Nat.add_sub_cancel_left, pow_add]
  push_cast
  field_simp

/-- The aligned sum is the sum of the quantities, in units of the aligned exponent (R116). -/
theorem alignedSum_eq_val_add (a b : Dec) : (alignedSum a b : ℚ) = (a.val + b.val) * 10 ^ alignedExp a b := by
  rw [a.val_eq_rescaled (le_max_left a.exp.toNat b.exp.toNat), b.val_eq_rescaled (le_max_right a.exp.toNat b.exp.toNat),
    alignedSum, alignedExp]
  push_cast
  field_simp

/-- Addends of at most 19 places fit an addition if they and their sum fit 128 bits at 19 places (R116). -/
theorem addFits_of_abs_val_lt {a b : Dec} (ha : a.exp.toNat ≤ 19) (hb : b.exp.toNat ≤ 19)
    (hva : |a.val| * 10 ^ 19 < 2 ^ 128) (hvb : |b.val| * 10 ^ 19 < 2 ^ 128)
    (hsum : |a.val + b.val| * 10 ^ 19 < 2 ^ 128) : AddFits a b := by
  have scaled {m : ℕ} {x : ℚ} (hm : (m : ℚ) = |x| * 10 ^ alignedExp a b) (hx : |x| * 10 ^ 19 < 2 ^ 128) :
      m < 2 ^ 128 := by
    have power : (10 : ℚ) ^ alignedExp a b ≤ 10 ^ 19 := pow_le_pow_right₀ (by norm_num) (max_le ha hb)
    have bound : (m : ℚ) < 2 ^ 128 := by
      rw [hm]
      exact (mul_le_mul_of_nonneg_left power (abs_nonneg x)).trans_lt hx
    exact_mod_cast bound
  refine ⟨scaled (alignedMag_eq_abs_val a (le_max_left _ _)) hva,
    scaled (alignedMag_eq_abs_val b (le_max_right _ _)) hvb, scaled ?_ hsum⟩
  have hpow : (0 : ℚ) < 10 ^ alignedExp a b := by positivity
  rw [Nat.cast_natAbs, Int.cast_abs, alignedSum_eq_val_add, abs_mul, abs_of_pos hpow]

/-! ### The dividend rebuilt -/

/-- What rebuilding the dividend from a pair needs: the canonical product fits, and in units of `10^-19` product,
remainder and dividend fit 128 bits (R152 (c)). -/
structure Rebuilds (a b : Dec) (qr : Dec × Dec) : Prop where
  mul_fits : MulFits qr.1.canonical b.canonical
  product_lt : |qr.1.val * b.val| * 10 ^ 19 < 2 ^ 128
  remainder_lt : |qr.2.val| * 10 ^ 19 < 2 ^ 128
  dividend_lt : |a.val| * 10 ^ 19 < 2 ^ 128

/-- The product and the remainder of a pair that fits are no larger than the rescaled dividend (R147). -/
theorem quoRemExact_rebuilds {a b : Dec} (ha : a.finite = true) (hb : b.finite = true) (h : QuoRemFits a b) :
    Rebuilds a b (quoRemExact a b) := by
  obtain ⟨hae, haw⟩ := a.finite_iff.1 ha
  obtain ⟨hbe, hbw⟩ := b.finite_iff.1 hb
  obtain ⟨hq, -⟩ := quoRemExact_coef h
  obtain ⟨hn, -⟩ := h
  have expB : b.exp.toNat ≤ 19 := Dec.exp_le_of_wf hbw hbe
  have expQ : (quoRemExact a b).1.exp.toNat = 19 - b.exp.toNat := Nat.mod_eq_of_lt (by omega)
  have expR : (quoRemExact a b).2.exp.toNat = 19 := rfl
  have hqe : (quoRemExact a b).1.isError = false := (Dec.isError_eq_false_iff _).2 (signOf_toNat_lt a b)
  have product : (quoRemExact a b).1.coef.toNat * b.coef.toNat < 2 ^ 128 := by
    rw [hq]
    exact (Nat.div_mul_le_self _ _).trans_lt hn
  have remainder : (quoRemExact a b).2.coef.toNat < 2 ^ 128 := BitVec.isLt _
  refine ⟨⟨?_, ?_⟩, ?_, ?_, ?_⟩
  · have cancelQ := (Dec.canonical_spec hqe).1
    have cancelB := (Dec.canonical_spec hbe).1
    omega
  · exact (Nat.mul_le_mul (Dec.canonical_coef_le hqe) (Dec.canonical_coef_le hbe)).trans_lt product
  · have units : |(quoRemExact a b).1.val * b.val| * 10 ^ 19 =
        ((quoRemExact a b).1.coef.toNat * b.coef.toNat : ℕ) := by
      rw [abs_mul, Dec.abs_val, b.abs_val, expQ, div_mul_div_comm, ← pow_add, Nat.sub_add_cancel expB]
      push_cast
      field_simp
    rw [units]
    exact_mod_cast product
  · rw [← alignedMag_eq_abs_val _ expR.le, alignedMag, expR, Nat.sub_self, pow_zero, mul_one]
    exact_mod_cast remainder
  · rw [← alignedMag_eq_abs_val a (Dec.exp_le_of_wf haw hae)]
    exact_mod_cast hn

/-- A pair that rebuilds the canonical dividend rebuilds the dividend. -/
theorem Rebuilds.of_canonical {a b : Dec} {qr : Dec × Dec} (ha : a.isError = false) (hb : b.isError = false)
    (h : Rebuilds a.canonical b.canonical qr) : Rebuilds a b qr := by
  obtain ⟨fits, product, remainder, dividend⟩ := h
  rw [Dec.canonical_of_isCanonical (Dec.canonical_isCanonical hb)] at fits
  rw [Dec.canonical_val hb] at product
  rw [Dec.canonical_val ha] at dividend
  exact ⟨fits, product, remainder, dividend⟩

/-- A zero dividend is rebuilt from `Zero` twice. -/
theorem rebuilds_of_zero_dividend {a b : Dec} (ha0 : a.coef = 0) (hb : b.finite = true) :
    Rebuilds a b (both Dec.zero) := by
  obtain ⟨hbe, hbw⟩ := b.canonical.finite_iff.1 (Dec.canonical_finite hb)
  have expB : b.canonical.exp.toNat ≤ 19 := Dec.exp_le_of_wf hbw hbe
  have canonical : Dec.zero.canonical = Dec.zero := by decide
  have zero : Dec.zero.val = 0 := Dec.zero.val_eq_zero_iff.2 rfl
  have dividend : a.val = 0 := a.val_eq_zero_iff.2 (a.coef_eq_zero_iff.1 ha0)
  refine ⟨?_, ?_, ?_, ?_⟩
  · rw [both, canonical]
    exact ⟨by simpa [Dec.zero] using expB, by simp [Dec.zero]⟩
  · simp [both, zero]
  · simp [both, zero]
  · simp [dividend]

/-- Where QuoRem of a finite dividend and a finite nonzero divisor is finite, its pair rebuilds the dividend
(R152 (c)). -/
theorem quoRemOp_rebuilds {a b : Dec} (ha : a.finite = true) (hb : b.finite = true) (hb0 : b.coef ≠ 0)
    (h : (quoRemOp a b).1.isError = false) : Rebuilds a b (quoRemOp a b) := by
  obtain ⟨hae, -⟩ := a.finite_iff.1 ha
  obtain ⟨hbe, -⟩ := b.finite_iff.1 hb
  by_cases ha0 : a.coef = 0
  · rw [quoRemOp_of_zero_dividend hae hbe ha0 hb0]
    exact rebuilds_of_zero_dividend ha0 hb
  · refine (quoRemOp_threePhases hae hbe ha0 hb0).induct (fun qr => qr.1.isError = false → Rebuilds a b qr)
      (fun fits _ => quoRemExact_rebuilds ha hb fits) (fun fits _ => ?_) (fun herr => ?_) h
    · exact (quoRemExact_rebuilds (Dec.canonical_finite ha) (Dec.canonical_finite hb) fits).of_canonical hae hbe
    · exact absurd herr (by decide)

end Sys2Proof

namespace Sys2Proof.Machine

/-- Settles O40: either phase of Div delivers the truncated quotient, else Overflow. -/
theorem divIsTruncatedTrueQuotient : Obligations.DivIsTruncatedTrueQuotient := by
  rintro s ⟨clean, hfa, hfb⟩ ha0 hb0
  refine ⟨_, exec_div ⟨clean, (s.va.finite_iff.1 hfa).2, (s.vb.finite_iff.1 hfb).2⟩, ?_⟩
  exact (divOp_overflow_or_isTruncatedQuotient hfa hfb ha0 hb0).imp_right fun ⟨coef, exponent, sign⟩ =>
    ⟨coef, exponent, sign⟩

/-- Settles O41: a finite quotient is `Zero` for a zero dividend, else the truncated quotient of the quantities. -/
theorem divDependsOnQuantityOnly : Obligations.DivDependsOnQuantityOnly := by
  rintro s s' t t' ⟨clean, hfa, hfb⟩ ⟨clean', hfa', hfb'⟩ hva hvb e e' h h'
  rw [exec_div ⟨clean, (s.va.finite_iff.1 hfa).2, (s.vb.finite_iff.1 hfb).2⟩] at e
  rw [exec_div ⟨clean', (s'.va.finite_iff.1 hfa').2, (s'.vb.finite_iff.1 hfb').2⟩] at e'
  cases e
  cases e'
  exact divOp_eq_of_val_eq hfa hfb hfa' hfb' hva hvb h h'

/-- Settles O46: at divisor exponent 0, Div is the quotient of QuoRem, error and zero operands included. -/
theorem divIsQuotientForIntegerDivisor : Obligations.DivIsQuotientForIntegerDivisor := by
  intro s hs hexp
  have quotient : divOp s.va s.vb = (quoRemOp s.va s.vb).1 := divOp_eq_quotient _ (by rw [hexp]; rfl)
  refine ⟨_, (quoRemOp s.va s.vb).2, exec_div hs, ?_⟩
  rw [quotient]
  exact exec_quorem hs

/-- Settles O45: the product fits by its canonical operands, the sum by the size of the dividend, and both are
exact. -/
theorem reconstructionNeverOverflows : Obligations.ReconstructionNeverOverflows := by
  rintro s ⟨clean, hfa, hfb⟩ hb0
  obtain ⟨-, hwa⟩ := s.va.finite_iff.1 hfa
  obtain ⟨hb, hwb⟩ := s.vb.finite_iff.1 hfb
  refine ⟨_, _, exec_quorem ⟨clean, hwa, hwb⟩, fun hq => ?_⟩
  obtain ⟨hwq, hwr⟩ := quoRemOp_wf hwa hwb
  obtain ⟨hr, value, -, -⟩ := quoRemOp_isDivision hfa hfb hb0 hq
  obtain ⟨fits, product, remainder, dividend⟩ := quoRemOp_rebuilds hfa hfb hb0 hq
  generalize quoRemOp s.va s.vb = qr at *
  have hp : (mulOp qr.1 s.vb).isError = false := mulOp_finite_of_canonical_fits hq hb fits
  have hwp : (mulOp qr.1 s.vb).wf = true := mulOp_wf hwq hwb
  have mul_val : (mulOp qr.1 s.vb).val = qr.1.val * s.vb.val := mulOp_val hq hb hp
  have add_fits : AddFits (mulOp qr.1 s.vb) qr.2 := by
    apply addFits_of_abs_val_lt (Dec.exp_le_of_wf hwp hp) (Dec.exp_le_of_wf hwr hr)
    · rwa [mul_val]
    · exact remainder
    · rwa [mul_val, ← value]
  have sum : addOp (mulOp qr.1 s.vb) qr.2 = addExact (mulOp qr.1 s.vb) qr.2 := (addOp_threePhases hp hr).1 add_fits
  refine ⟨_, _, exec_mul (s := { s with va := qr.1 }) ⟨clean, hwq, hwb⟩, hp,
    exec_add (s := { s with va := mulOp qr.1 s.vb, vb := qr.2 }) ⟨clean, hwp, hwr⟩, ?_, ?_⟩
  · rw [sum]
    exact addExact_isError hp _
  · rw [sum, addExact_val add_fits, mul_val, value]

end Sys2Proof.Machine

/-! ## Roots and powers by quantity (spec/44_unary.md, R168, R172)

The special cases of Sqrt are cases of the quantity, and its radicand is the quantity in units of `10^-38`. A finite
power has only finite steps, each of which is exact. -/

namespace Sys2Proof

/-! ### Sqrt by the quantity -/

theorem Dec.isZero_iff_val (v : Dec) : v.isZero = true ↔ v.val = 0 := by
  rw [v.isZero_iff, v.val_eq_zero_iff]

theorem Dec.isNeg_iff_val {v : Dec} (h0 : v.isZero = false) : v.isNeg = true ↔ v.val < 0 := by
  have nonzero : v.coef.toNat ≠ 0 := v.isZero_iff.not.1 (by simp [h0])
  rw [v.val_neg_iff, and_iff_left nonzero]
  exact v.isNeg_iff

/-- A record that is not Negative is a one exactly when its coefficient is the power of its exponent (R165). -/
theorem Dec.coef_eq_pow_iff_val {v : Dec} (hpos : v.isNeg = false) :
    v.coef.toNat = 10 ^ v.exp.toNat ↔ v.val = 1 := by
  have notNegative : v.state ≠ 1 := v.isNeg_iff.not.1 (by simp [hpos])
  rw [v.val_eq_abs, if_neg notNegative, v.abs_val, div_eq_one_iff_eq (by positivity)]
  norm_cast

theorem Dec.one_val : Dec.one.val = 1 :=
  (Dec.coef_eq_pow_iff_val rfl).1 rfl

/-- Sqrt of a finite value, its cases told by the quantity (R165). -/
theorem sqrtOp_eq_ite_val {v : Dec} (hv : v.isError = false) :
    sqrtOp v = if v.val = 0 then Dec.zero else if v.val < 0 then Dec.err Dec.sqrtNegative
      else if v.val = 1 then Dec.one else Dec.ofNat (isqrt (alignedMag v 38)) 19 Dec.positive := by
  rcases sqrtOp_cases v with ⟨error, -⟩ | ⟨-, zero, e⟩ | ⟨-, nonzero, neg, e⟩ | ⟨-, nonzero, nonneg, one, e⟩ |
    ⟨-, nonzero, nonneg, other, e⟩
  · rw [hv] at error
    cases error
  · rw [e, if_pos (v.isZero_iff_val.1 zero)]
  all_goals rw [e, if_neg (v.isZero_iff_val.not.1 (by simp [nonzero]))]
  · rw [if_pos ((Dec.isNeg_iff_val nonzero).1 neg)]
  all_goals rw [if_neg ((Dec.isNeg_iff_val nonzero).not.1 (by simp [nonneg]))]
  · rw [if_pos ((Dec.coef_eq_pow_iff_val nonneg).1 one)]
  · rw [if_neg ((Dec.coef_eq_pow_iff_val nonneg).not.1 other)]
    rfl

/-- Records of one quantity have one magnitude at any exponent neither passes (R116). -/
theorem alignedMag_eq_of_val_eq {v w : Dec} {e : ℕ} (hv : v.exp.toNat ≤ e) (hw : w.exp.toNat ≤ e)
    (h : v.val = w.val) : alignedMag v e = alignedMag w e := by
  have magnitudes : (alignedMag v e : ℚ) = alignedMag w e := by
    rw [alignedMag_eq_abs_val v hv, alignedMag_eq_abs_val w hw, h]
  exact_mod_cast magnitudes

/-- The root does not depend on how the operand is represented (R168 (c)). -/
theorem sqrtOp_eq_of_val_eq {v w : Dec} (hv : v.finite = true) (hw : w.finite = true) (h : v.val = w.val) :
    sqrtOp v = sqrtOp w := by
  obtain ⟨hve, hvw⟩ := v.finite_iff.1 hv
  obtain ⟨hwe, hww⟩ := w.finite_iff.1 hw
  have expV : v.exp.toNat ≤ 38 := (Dec.exp_le_of_wf hvw hve).trans (by decide)
  have expW : w.exp.toNat ≤ 38 := (Dec.exp_le_of_wf hww hwe).trans (by decide)
  rw [sqrtOp_eq_ite_val hve, sqrtOp_eq_ite_val hwe, h, alignedMag_eq_of_val_eq expV expW h]

/-! ### Finite powers -/

/-- A finite product has a finite left operand (R111). -/
theorem finite_left_of_mulOp_finite {a b : Dec} (h : (mulOp a b).isError = false) : a.isError = false := by
  by_contra ha
  rw [Bool.not_eq_false] at ha
  rw [(absorbs_left b ha).mul, ha] at h
  cases h

/-- A finite power has a finite base (R170). -/
theorem finite_base_of_powOp_finite {x : Dec} {n : ℤ} (h : (powOp x n).isError = false) : x.isError = false := by
  by_contra hx
  rw [Bool.not_eq_false] at hx
  rw [powOp_of_isError hx, hx] at h
  cases h

/-- The most negative exponent has no finite power (R170). -/
theorem ne_min_of_powOp_finite {x : Dec} {n : ℤ} (h : (powOp x n).isError = false) : n ≠ -(2 ^ 63) := by
  rintro rfl
  rw [powOp_min (finite_base_of_powOp_finite h)] at h
  exact absurd h (by decide)

/-- A finite power of a natural exponent is exact (R172). -/
theorem powOp_natCast_val (n : ℕ) (hn : n < 2 ^ 63) {x : Dec} (h : (powOp x n).isError = false) :
    (powOp x n).val = x.val ^ n := by
  induction n using Nat.strong_induction_on generalizing x with
  | _ n ih =>
    have hx : x.isError = false := finite_base_of_powOp_finite h
    obtain rfl | rfl | h2 : n = 0 ∨ n = 1 ∨ 2 ≤ n := by omega
    · rw [Nat.cast_zero, powOp_zero hx, pow_zero]
      exact Dec.one_val
    · rw [Nat.cast_one, powOp_one hx, pow_one]
    · have half (hy : (powOp (mulOp x x) (n / 2 : ℕ)).isError = false) :
          (powOp (mulOp x x) (n / 2 : ℕ)).val = x.val ^ (2 * (n / 2)) := by
        have square : (mulOp x x).val = x.val * x.val := mulOp_val hx hx (finite_base_of_powOp_finite hy)
        rw [ih (n / 2) (by omega) (by omega) hy, square, pow_mul, pow_two]
      have level := powOp_square hx (n := n) (by omega) (by omega)
      norm_cast at level
      rw [level] at h ⊢
      split_ifs at h ⊢ with even
      · rw [half h, Nat.mul_div_cancel' (Nat.dvd_of_mod_eq_zero even)]
      · have hy := finite_left_of_mulOp_finite h
        rw [mulOp_val hy hx h, half hy, ← pow_succ]
        congr 1
        omega

/-- A finite power of an exponent that is not negative is exact (R172). -/
theorem powOp_val {x : Dec} {n : ℤ} (h0 : 0 ≤ n) (hn : n < 2 ^ 63) (h : (powOp x n).isError = false) :
    (powOp x n).val = x.val ^ n.toNat := by
  lift n to ℕ using h0
  exact powOp_natCast_val n (by omega) h

/-- A finite power of a negative exponent is the truncated reciprocal of a finite nonzero power (R170, R172). -/
theorem powOp_isTruncatedReciprocal {x : Dec} {n : ℤ} (hw : x.wf = true) (hneg : n < 0)
    (h : (powOp x n).isError = false) :
    (powOp x (-n)).isError = false ∧ (powOp x (-n)).coef ≠ 0 ∧
      IsTruncatedQuotient Dec.one (powOp x (-n)) (powOp x n) := by
  have hx : x.isError = false := finite_base_of_powOp_finite h
  have reciprocal : powOp x n = divOp Dec.one (powOp x (-n)) := powOp_of_neg hx hneg (ne_min_of_powOp_finite h)
  rw [reciprocal] at h ⊢
  have hone : Dec.one.isError = false := by decide
  have hy : (powOp x (-n)).isError = false := by
    by_contra hy
    rw [Bool.not_eq_false] at hy
    rw [(absorbs_right hone hy).div, hy] at h
    cases h
  have hy0 := divisor_ne_zero_of_divOp_finite hone hy h
  exact ⟨hy, hy0, divOp_isTruncatedQuotient (by decide) ((Dec.finite_iff _).2 ⟨hy, powOp_wf _ hw⟩) (by decide) hy0 h⟩

/-- The reciprocal of a nonzero value has that value's sign (R142). -/
theorem signOf_one {y : Dec} (hy : y.isError = false) (hy0 : y.coef ≠ 0) :
    signOf Dec.one y = if y.val < 0 then 1 else 0 := by
  have negative : y.val < 0 ↔ y.state = Dec.negative := by
    rw [y.val_neg_iff, and_iff_left (y.coef_eq_zero_iff.not.1 hy0)]
  simp only [signOf, negative]
  rcases Dec.state_of_not_isError hy with s | s <;> rw [s] <;> rfl

end Sys2Proof

namespace Sys2Proof.Machine

/-- Settles O50: Sqrt of a finite VA is told by its quantity. -/
theorem sqrtDependsOnQuantityOnly : Obligations.SqrtDependsOnQuantityOnly := by
  rintro s s' t t' ⟨clean, hfin⟩ ⟨clean', hfin'⟩ hval e e'
  rw [exec_sqrt clean (s.va.finite_iff.1 hfin).2] at e
  rw [exec_sqrt clean' (s'.va.finite_iff.1 hfin').2] at e'
  cases e
  cases e'
  exact sqrtOp_eq_of_val_eq hfin hfin' hval

/-- Settles O52: a finite power multiplies exactly, and a finite reciprocal is the truncated quotient of one by such a
power. -/
theorem finitePowersAreExact : Obligations.FinitePowersAreExact := by
  rintro s ⟨clean, hfin⟩
  obtain ⟨-, hw⟩ := s.va.finite_iff.1 hfin
  have bound := sint_natAbs_le s.n
  have range : sint s.n < 2 ^ 63 := by
    rw [sint_eq_toInt]
    exact s.n.toInt_lt
  refine ⟨_, exec_powi clean hw, fun hr => ⟨fun hnn => powOp_val hnn range hr, fun hneg => ?_⟩⟩
  obtain ⟨hy, hy0, coef, exponent, sign⟩ := powOp_isTruncatedReciprocal hw hneg hr
  have range' : -sint s.n < 2 ^ 63 := by
    have min := ne_min_of_powOp_finite hr
    omega
  have power := powOp_val (by omega) range' hy
  rw [Dec.one_val, power, abs_one, abs_pow] at coef
  rw [signOf_one hy hy0, power] at sign
  exact ⟨coef, exponent, sign⟩

end Sys2Proof.Machine

/-! ## Where error markers come from (spec/60_exceptions.md, R221)

On finite operands an operation gives a finite value or one of its own markers, and Mul and Div also hand on a marker
they are given, which is how an overflow inside a power reaches its result. -/

namespace Sys2Proof

/-- A finite value, or a newly produced marker among `ms` (R25). -/
def FiniteOrMarker (ms : List Byte) (v : Dec) : Prop := v.isError = false ∨ ∃ m ∈ ms, v = Dec.err m

/-- Two finite values, or one newly produced marker among `ms` twice (R148). -/
def BothFiniteOrMarker (ms : List Byte) (qr : Dec × Dec) : Prop :=
  (qr.1.isError = false ∧ qr.2.isError = false) ∨ ∃ m ∈ ms, qr = both (Dec.err m)

section
variable {ms : List Byte}

theorem finiteOrMarker_err {m : Byte} (h : m ∈ ms) : FiniteOrMarker ms (Dec.err m) := .inr ⟨m, h, rfl⟩

theorem BothFiniteOrMarker.fst {qr : Dec × Dec} (h : BothFiniteOrMarker ms qr) : FiniteOrMarker ms qr.1 := by
  rcases h with ⟨finite, -⟩ | ⟨m, hm, rfl⟩
  · exact .inl finite
  · exact finiteOrMarker_err hm

theorem BothFiniteOrMarker.snd {qr : Dec × Dec} (h : BothFiniteOrMarker ms qr) : FiniteOrMarker ms qr.2 := by
  rcases h with ⟨-, finite⟩ | ⟨m, hm, rfl⟩
  · exact .inl finite
  · exact finiteOrMarker_err hm

/-- Where either result is an error, both are one record (R148). -/
theorem BothFiniteOrMarker.eq_of_isError {qr : Dec × Dec} (h : BothFiniteOrMarker ms qr)
    (herr : qr.1.isError = true ∨ qr.2.isError = true) : qr.2 = qr.1 := by
  rcases h with ⟨fst, snd⟩ | ⟨m, -, rfl⟩
  · simp [fst, snd] at herr
  · rfl

/-- The state code is a sign or one of the markers. -/
theorem FiniteOrMarker.state_cases {v : Dec} (h : FiniteOrMarker ms v) :
    v.state = 0 ∨ v.state = 1 ∨ v.state ∈ ms := by
  rcases h with finite | ⟨m, hm, rfl⟩
  · exact (Dec.state_of_not_isError finite).imp_right .inl
  · exact .inr (.inr hm)

/-- An error is one of the markers, with zero in its other fields (R25). -/
theorem FiniteOrMarker.of_isError {v : Dec} (h : FiniteOrMarker ms v) (herr : v.isError = true) :
    v.state ∈ ms ∧ v.coef = 0 ∧ v.exp = 0 := by
  rcases h with finite | ⟨m, hm, rfl⟩
  · rw [finite] at herr
    cases herr
  · exact ⟨hm, rfl, rfl⟩

/-! ### The operations -/

/-- The two tiers on finite operands: a property of every successful attempt on finite operands, and of the overflow
result (R112). -/
theorem twoTier_of_finite {α : Type} {att : Dec → Dec → Option α} {ovf : α} (P : α → Prop) {a b : Dec}
    (ha : a.isError = false) (hb : b.isError = false)
    (attempt : ∀ {a b : Dec} {r : α}, a.isError = false → b.isError = false → att a b = some r → P r)
    (ovfCase : P ovf) : P (twoTier att ovf a b) :=
  twoTier_induct P (fun _ => attempt ha hb)
    (fun _ => attempt (by rwa [Dec.canonical_isError]) (by rwa [Dec.canonical_isError])) ovfCase

theorem addOp_finiteOrMarker {a b : Dec} (ho : Dec.overflow ∈ ms) (ha : a.isError = false) (hb : b.isError = false) :
    FiniteOrMarker ms (addOp a b) := by
  rw [addOp, shortCircuit_finite _ _ ha hb]
  refine twoTier_of_finite (FiniteOrMarker ms) ha hb (fun ha hb h => .inl ?_) (finiteOrMarker_err ho)
  rw [eq_addExact_of_addAttempt ha hb h]
  exact addExact_isError ha _

theorem subOp_finiteOrMarker {a b : Dec} (ho : Dec.overflow ∈ ms) (ha : a.isError = false) (hb : b.isError = false) :
    FiniteOrMarker ms (subOp a b) := by
  rw [subOp_finite ha hb]
  exact addOp_finiteOrMarker ho ha (Dec.toggle_isError hb)

/-- Mul adds Overflow to the markers of its operands (R131). -/
theorem mulOp_finiteOrMarker {a b : Dec} (ho : Dec.overflow ∈ ms) (ha : FiniteOrMarker ms a)
    (hb : FiniteOrMarker ms b) : FiniteOrMarker ms (mulOp a b) := by
  unfold mulOp
  rcases shortCircuit_cases id a b (if a.isZero || b.isZero then Dec.zero
    else twoTier mulAttempt (Dec.err Dec.overflow) a b) with ⟨-, e⟩ | ⟨-, -, e⟩ | ⟨hae, hbe, e⟩ <;> rw [e]
  · exact ha
  · exact hb
  · split
    · exact .inl rfl
    · refine twoTier_of_finite (FiniteOrMarker ms) hae hbe (fun ha hb h => .inl ?_) (finiteOrMarker_err ho)
      rw [eq_mulExact_of_mulAttempt ha hb h]
      exact mulExact_isError _ _

/-- The sign of a quotient is no error marker (R142). -/
theorem ofNat_signXor_isError {a b : Dec} (ha : a.isError = false) (hb : b.isError = false) (c e : ℕ) :
    (Dec.ofNat c e (a.signXor b)).isError = false := by
  rw [Dec.signXor_eq_signOf ha hb]
  exact (Dec.isError_eq_false_iff _).2 (signOf_toNat_lt a b)

/-- Div adds Overflow and DivisionByZero to the markers of its operands (R140, R144). -/
theorem divOp_finiteOrMarker {a b : Dec} (ho : Dec.overflow ∈ ms) (hz : Dec.divisionByZero ∈ ms)
    (ha : FiniteOrMarker ms a) (hb : FiniteOrMarker ms b) : FiniteOrMarker ms (divOp a b) := by
  refine divisionChecks_induct (FiniteOrMarker ms) (fun _ => ha) (fun _ => hb) (finiteOrMarker_err hz) (.inl rfl)
    fun hae hbe _ _ =>
      twoTier_of_finite (FiniteOrMarker ms) hae hbe (fun ha hb h => .inl ?_) (finiteOrMarker_err ho)
  obtain ⟨-, -, rfl⟩ := divAttempt_some h
  exact ofNat_signXor_isError ha hb _ _

theorem quoRemOp_bothFiniteOrMarker {a b : Dec} (ho : Dec.overflow ∈ ms) (hz : Dec.divisionByZero ∈ ms)
    (ha : a.isError = false) (hb : b.isError = false) : BothFiniteOrMarker ms (quoRemOp a b) := by
  refine divisionChecks_induct (BothFiniteOrMarker ms) (fun h => ?_) (fun h => ?_) (.inr ⟨_, hz, rfl⟩)
    (.inl ⟨rfl, rfl⟩) fun _ _ _ _ =>
      twoTier_of_finite (BothFiniteOrMarker ms) ha hb (fun ha hb h => .inl ?_) (.inr ⟨_, ho, rfl⟩)
  · rw [ha] at h
    cases h
  · rw [hb] at h
    cases h
  · obtain ⟨-, -, rfl⟩ := quoRemAttempt_some h
    exact ⟨ofNat_signXor_isError ha hb _ _, ha⟩

theorem sqrtOp_finiteOrMarker {v : Dec} (hs : Dec.sqrtNegative ∈ ms) (hv : v.isError = false) :
    FiniteOrMarker ms (sqrtOp v) := by
  rcases sqrtOp_cases v with ⟨-, e⟩ | ⟨-, -, e⟩ | ⟨-, -, -, e⟩ | ⟨-, -, -, -, e⟩ | ⟨-, -, -, -, e⟩ <;> rw [e]
  · exact .inl hv
  · exact .inl rfl
  · exact finiteOrMarker_err hs
  · exact .inl rfl
  · exact .inl rfl

/-- A power multiplies only, so it adds Overflow to the markers of its base (R170). -/
theorem powNat_finiteOrMarker (ho : Dec.overflow ∈ ms) (fuel : ℕ) {x : Dec} (n : ℕ) (hx : FiniteOrMarker ms x) :
    FiniteOrMarker ms (powNat fuel x n) := by
  induction fuel generalizing x n with
  | zero => exact hx
  | succ fuel ih =>
    have half := ih (n / 2) (mulOp_finiteOrMarker ho hx hx)
    unfold powNat
    dsimp only
    split_ifs
    · exact hx
    · exact .inl rfl
    · exact hx
    · exact half
    · exact mulOp_finiteOrMarker ho half hx

theorem powOp_finiteOrMarker (ho : Dec.overflow ∈ ms) (hz : Dec.divisionByZero ∈ ms) {x : Dec} (n : ℤ)
    (hx : x.isError = false) : FiniteOrMarker ms (powOp x n) := by
  have power := powNat_finiteOrMarker ho Config.nBits n.natAbs (.inl hx)
  unfold powOp
  split_ifs
  · exact .inl hx
  · exact finiteOrMarker_err ho
  · exact divOp_finiteOrMarker ho hz (.inl rfl) power
  · exact power

theorem absOp_isError {v : Dec} (h : v.isError = false) : (absOp v).isError = false := by
  rw [absOp_of_finite h]
  rfl

theorem negOp_isError {v : Dec} (h : v.isError = false) : (negOp v).isError = false := by
  rw [negOp_of_finite h]
  exact Dec.toggle_isError h

end

/-! ### The taxonomy of R221 -/

/-- The markers a command produces on finite operands (R221). -/
def Instr.markers : Instr → List Byte
  | .add | .sub | .mul | .addi | .subi | .muli => [Dec.overflow]
  | .div | .mod | .quorem | .divi | .modi | .quoremi | .powi => [Dec.overflow, Dec.divisionByZero]
  | .sqrt => [Dec.sqrtNegative]
  | .canon | .abs | .neg | .fromi => []
  | .rdown _ | .rup _ | .rtz _ | .rafz _ | .rhtz _ | .rhafz _ | .rbank _ | .trunc _ => []

/-- The taxonomy of R221 as the classes of commands a marker comes from. -/
theorem Instr.of_mem_markers {i : Instr} {m : Byte} (h : m ∈ i.markers) :
    (m = 5 ∧ i = .sqrt) ∨ (m = 4 ∧ i ∈ [Instr.div, .mod, .quorem, .divi, .modi, .quoremi, .powi]) ∨
      (m = 3 ∧ i ∈ [Instr.add, .sub, .mul, .div, .mod, .quorem, .addi, .subi, .muli, .divi, .modi, .quoremi,
        .powi]) := by
  cases i with
  | sqrt => exact .inl ⟨List.mem_singleton.1 h, rfl⟩
  | add | sub | mul | addi | subi | muli => exact .inr (.inr ⟨List.mem_singleton.1 h, by decide⟩)
  | div | mod | quorem | divi | modi | quoremi | powi =>
    obtain rfl | h := List.mem_cons.1 h
    · exact .inr (.inr ⟨rfl, by decide⟩)
    · exact .inr (.inl ⟨List.mem_singleton.1 h, by decide⟩)
  | canon | abs | neg | fromi | rdown | rup | rtz | rafz | rhtz | rhafz | rbank | trunc =>
    exact absurd h List.not_mem_nil

end Sys2Proof

namespace Sys2Proof.Machine

/-- On finite operands every command writes a finite value or one of its markers to VQ (R221). -/
theorem exec_finiteOrMarker (i : Instr) {s : State} (hs : s.ReadyAB) :
    ∃ v w, exec i s = .next { s with vq := v, vr := w } ∧ FiniteOrMarker i.markers v := by
  obtain ⟨clean, hfa, hfb⟩ := hs
  obtain ⟨ha, hwa⟩ := s.va.finite_iff.1 hfa
  obtain ⟨hb, hwb⟩ := s.vb.finite_iff.1 hfb
  have ready : s.Ready := ⟨clean, hwa, hwb⟩
  have hn : s.nOperand.isError = false := fromInt64_isError _
  have o : Dec.overflow ∈ [Dec.overflow] := by decide
  have o' : Dec.overflow ∈ [Dec.overflow, Dec.divisionByZero] := by decide
  have z : Dec.divisionByZero ∈ [Dec.overflow, Dec.divisionByZero] := by decide
  have rounded (mode : RoundMode) (p : ℕ) {ms : List Byte} :
      ∃ v w, exec (mode.instr p) s = .next { s with vq := v, vr := w } ∧ FiniteOrMarker ms v :=
    ⟨_, s.vr, exec_rounding mode p clean hwa, .inl (roundOp_isError mode p ha)⟩
  cases i with
  | canon => exact ⟨_, s.vr, exec_canon clean hwa, .inl (by rwa [Dec.canonical_isError])⟩
  | abs => exact ⟨_, s.vr, exec_abs clean hwa, .inl (absOp_isError ha)⟩
  | neg => exact ⟨_, s.vr, exec_neg clean hwa, .inl (negOp_isError ha)⟩
  | sqrt => exact ⟨_, s.vr, exec_sqrt clean hwa, sqrtOp_finiteOrMarker (by decide) ha⟩
  | powi => exact ⟨_, s.vr, exec_powi clean hwa, powOp_finiteOrMarker o' z _ ha⟩
  | fromi => exact ⟨_, s.vr, exec_fromi clean, .inl hn⟩
  | add => exact ⟨_, s.vr, exec_add ready, addOp_finiteOrMarker o ha hb⟩
  | sub => exact ⟨_, s.vr, exec_sub ready, subOp_finiteOrMarker o ha hb⟩
  | mul => exact ⟨_, s.vr, exec_mul ready, mulOp_finiteOrMarker o (.inl ha) (.inl hb)⟩
  | div => exact ⟨_, s.vr, exec_div ready, divOp_finiteOrMarker o' z (.inl ha) (.inl hb)⟩
  | mod => exact ⟨_, s.vr, exec_mod ready, (quoRemOp_bothFiniteOrMarker o' z ha hb).snd⟩
  | quorem => exact ⟨_, _, exec_quorem ready, (quoRemOp_bothFiniteOrMarker o' z ha hb).fst⟩
  | addi => exact ⟨_, s.vr, exec_addi clean hwa, addOp_finiteOrMarker o ha hn⟩
  | subi => exact ⟨_, s.vr, exec_subi clean hwa, subOp_finiteOrMarker o ha hn⟩
  | muli => exact ⟨_, s.vr, exec_muli clean hwa, mulOp_finiteOrMarker o (.inl ha) (.inl hn)⟩
  | divi => exact ⟨_, s.vr, exec_divi clean hwa, divOp_finiteOrMarker o' z (.inl ha) (.inl hn)⟩
  | modi => exact ⟨_, s.vr, exec_modi clean hwa, (quoRemOp_bothFiniteOrMarker o' z ha hn).snd⟩
  | quoremi => exact ⟨_, _, exec_quoremi clean hwa, (quoRemOp_bothFiniteOrMarker o' z ha hn).fst⟩
  | rdown p => exact rounded .down p
  | rup p => exact rounded .up p
  | rtz p => exact rounded .towardZero p
  | rafz p => exact rounded .awayFromZero p
  | rhtz p => exact rounded .halfTowardZero p
  | rhafz p => exact rounded .halfAwayFromZero p
  | rbank p => exact rounded .bank p
  | trunc p => exact rounded .trunc p

/-- On finite operands QUOREM and QUOREMI write two finite values, or one marker twice (R148, R221). -/
theorem exec_bothFiniteOrMarker {i : Instr} {s : State} (hs : s.ReadyAB) (hi : i = .quorem ∨ i = .quoremi) :
    ∃ qr : Dec × Dec, exec i s = .next { s with vq := qr.1, vr := qr.2 } ∧
      BothFiniteOrMarker [Dec.overflow, Dec.divisionByZero] qr := by
  obtain ⟨clean, hfa, hfb⟩ := hs
  obtain ⟨ha, hwa⟩ := s.va.finite_iff.1 hfa
  obtain ⟨hb, hwb⟩ := s.vb.finite_iff.1 hfb
  rcases hi with rfl | rfl
  · exact ⟨_, exec_quorem ⟨clean, hwa, hwb⟩, quoRemOp_bothFiniteOrMarker (by decide) (by decide) ha hb⟩
  · exact ⟨_, exec_quoremi clean hwa,
      quoRemOp_bothFiniteOrMarker (by decide) (by decide) ha (fromInt64_isError _)⟩

/-- Settles O30: VQ is finite or one of the command's markers, and a marker of a division's two results is in both. -/
theorem markersHaveTheirSources : Obligations.MarkersHaveTheirSources := by
  intro i s t hs h
  have vq : FiniteOrMarker i.markers t.vq := by
    obtain ⟨v, w, e, hv⟩ := exec_finiteOrMarker i hs
    rw [e] at h
    cases h
    exact hv
  have source (herr : 2 ≤ t.vq.state.toNat) := Instr.of_mem_markers (vq.of_isError ((Dec.isError_iff _).2 herr)).1
  refine ⟨?_, fun h5 => ?_, fun h4 => ?_, fun h3 => ?_, fun herr => (vq.of_isError ((Dec.isError_iff _).2 herr)).2,
    fun hi => ?_⟩
  · rcases vq.state_cases with h0 | h1 | hm
    · exact .inl h0
    · exact .inr (.inl h1)
    · rcases Instr.of_mem_markers hm with ⟨h5, -⟩ | ⟨h4, -⟩ | ⟨h3, -⟩
      · exact .inr (.inr (.inr (.inr h5)))
      · exact .inr (.inr (.inr (.inl h4)))
      · exact .inr (.inr (.inl h3))
  · simpa [h5] using source (by rw [h5]; decide)
  · simpa [h4] using source (by rw [h4]; decide)
  · simpa [h3] using source (by rw [h3]; decide)
  · obtain ⟨qr, e, pair⟩ := exec_bothFiniteOrMarker hs hi
    rw [e] at h
    cases h
    simp only [← Dec.isError_iff]
    refine ⟨?_, fun herr => (pair.snd.of_isError herr).2, pair.eq_of_isError⟩
    simpa [Dec.overflow, Dec.divisionByZero] using pair.snd.state_cases

end Sys2Proof.Machine
